-- ==== Sys2Proof/Word.lean ====
section
/-!
DEFINITION. The machine's word types (00_scope.md rules R7, R8).
-/

namespace Sys2Proof

/-- A 32-bit word: an element of the state vector, a seed, a result, a bus of 32 lines (R7, R8). -/
abbrev Word := BitVec 32

/-- A value of the two 10-bit registers `idx` and `cnt` (R7, 10_state.md R31). -/
abbrev Idx := BitVec 10

/-- A command opcode, the port `cmd_op` (R7, 30_encoding.md R100). -/
abbrev Opcode := BitVec 3

/-- A 35-bit command word `CW`, `op` in bits 34..32 and `arg` in bits 31..0 (30_encoding.md R102). -/
abbrev Command := BitVec 35

/-- The state vector `mt`: always exactly N = 624 words, indexed 0..623 (10_state.md R34). -/
abbrev StateVec := Vector Word 624

end Sys2Proof
end

