-- ==== Sys2Proof/Config.lean ====
section
/-!
DEFINITION. What is fixed for the machine: the algorithm's constants (00_scope.md rule R6, 10_state.md rule R39),
none of which is state, and the number of passes of the rejection loop that one step of the model runs.
The literals are the source's, unaudited (91_not_in_source.md N9). Mark: UNVERIFIED, unsafe, log 16.
-/

namespace Sys2Proof.Config

/-- State length in words, R6. The definitions of the machine write it as the literal 624, as the spec's own
pseudocode writes its loop bounds. -/
abbrev N : Nat := 624

/-- Twist offset, R6. -/
abbrev M : Nat := 397

/-- Twist feedback constant, R6. -/
abbrev matrixA : Word := 0x9908b0df#32

/-- Bit 31 of a word, R6. -/
abbrev upperMask : Word := 0x80000000#32

/-- Bits 30..0 of a word, R6. -/
abbrev lowerMask : Word := 0x7fffffff#32

/-- Tempering mask of stage 2, R6. -/
abbrev temperingMaskB : Word := 0x9d2c5680#32

/-- Tempering mask of stage 3, R6. -/
abbrev temperingMaskC : Word := 0xefc60000#32

/-- Seeding multiplier, R6 (decimal there, `0x6c078965`). -/
abbrev initMult : Word := 1812433253#32

/-- How many passes of BOUNDED's rejection loop ONE step of the model runs. It is no limit of the machine: a loop that
has not ended by then is left in progress (state `DRAW`, no response) and the following steps go on with it edge by
edge (43_bounded.md R249, 93_implementation_defined.md "Rejection-loop length"). Mark: DESIGN CHOICE, safe, log 6. -/
def loopPasses : Nat := 32768

end Sys2Proof.Config
end

