-- ==== Sys2Proof/Syntax.lean ====
section
/-!
DEFINITION. The command set (00_scope.md rule R2, 30_encoding.md rule R104): one constructor per row of
spec/opcode_table.json.
-/

namespace Sys2Proof

/-- The four commands. Each carries its 32-bit argument as the port brings it: for WORD and BOOL these bits are
don't-care (R108), and they are kept because the sequencer latches them into `arg_r` (44_sequencer.md R274; log 18). -/
inductive Instr where
  /-- SEED, `op` 001: `arg` is the seed value, unsigned (R106, 40_seed.md R140). -/
  | seed (arg : Word)
  /-- WORD, `op` 010: `x` is don't-care (R108, 42_draw.md R205). -/
  | word (x : Word)
  /-- BOOL, `op` 011: `x` is don't-care (R108, 42_draw.md R206). -/
  | bool (x : Word)
  /-- BOUNDED, `op` 100: `n` is read as a signed 32-bit bound (R106, 43_bounded.md R240). -/
  | bounded (n : Word)
deriving DecidableEq, Repr

end Sys2Proof
end

