-- ==== Sys2Proof/WellFormed.lean ====
section
/-!
DEFINITION. Which terms are commands. Every `Instr` is one (30_encoding.md rule R117: no argument value makes an
encoding illegal); the spec's range checks are on the assembler's source lines (rule R114), which stand here too.
-/

namespace Sys2Proof

/-- A source line of the assembler, its operands as integers (30_encoding.md R113). -/
inductive Asm where
  /-- `SEED value`. -/
  | seed (value : Int)
  /-- `WORD`. -/
  | word
  /-- `BOOL`. -/
  | bool
  /-- `BOUNDED value`. -/
  | bounded (value : Int)
  /-- The pseudo-instruction `SEED_DEFAULT` (R115). -/
  | seedDefault
  /-- `.cmd op, arg`: any encoding. -/
  | raw (op arg : Int)
deriving DecidableEq, Repr

/-- Every command term is well formed: decoding is by `op` alone (R117), and every 32-bit value is a legal argument
(`n <= 1` is a legal command that ends with INVALID_ARGUMENT, R114). -/
def Instr.wellFormed : Instr → Bool
  | .seed _ => true
  | .word _ => true
  | .bool _ => true
  | .bounded _ => true

/-- A SEED operand may be any integer (R114). -/
def seedOperandOk (_value : Int) : Bool := true

/-- A BOUNDED operand must lie in the signed 32-bit range (R114). -/
def boundedOperandOk (value : Int) : Bool := decide (-2147483648 ≤ value ∧ value ≤ 2147483647)

/-- The first operand of `.cmd` is an opcode 0..7 (R113). -/
def rawOpOk (op : Int) : Bool := decide (0 ≤ op ∧ op ≤ 7)

/-- The second operand of `.cmd` is at most 2^32 - 1, or negative (R113). -/
def rawArgOk (arg : Int) : Bool := decide (arg ≤ 4294967295)

/-- The source lines the assembler takes; any other is an assembler error, not a command (R114). -/
def Asm.wellFormed : Asm → Bool
  | .seed v => seedOperandOk v
  | .word => true
  | .bool => true
  | .bounded v => boundedOperandOk v
  | .seedDefault => true
  | .raw op arg => rawOpOk op && rawArgOk arg

end Sys2Proof
end

