-- ==== Sys2Proof/Decode.lean ====
section
/-!
DEFINITION. Decoding and encoding of command words (30_encoding.md rules R102, R104, R105, R117).
-/

namespace Sys2Proof

/-- `SEED`, R104. -/
abbrev opSeed : Opcode := 0b001#3
/-- `WORD`, R104. -/
abbrev opWord : Opcode := 0b010#3
/-- `BOOL`, R104. -/
abbrev opBool : Opcode := 0b011#3
/-- `BOUNDED`, R104. -/
abbrev opBounded : Opcode := 0b100#3

/-- The field `CW[34:32]`, R102. -/
def Command.op (cw : Command) : Opcode := cw.extractLsb' 32 3

/-- The field `CW[31:0]`, R102. -/
def Command.arg (cw : Command) : Word := cw.extractLsb' 0 32

/-- The command word of an opcode and an argument, `op * 2^32 + arg` (R102, R103). -/
def Command.make (op : Opcode) (arg : Word) : Command := BitVec.ofNat 35 (op.toNat * 4294967296 + arg.toNat)

/-- Opcodes 000, 101, 110 and 111 are reserved and illegal (R105). -/
def reservedOp (op : Opcode) : Bool := op == 0b000#3 || op == 0b101#3 || op == 0b110#3 || op == 0b111#3

/-- Why a command word is no command. -/
inductive DecodeError where
  /-- A reserved opcode: the block answers ILLEGAL_OP (R105). -/
  | illegalOp (op : Opcode)
deriving DecidableEq, Repr

/-- The command of an opcode and an argument: by `op` alone (R104, R117). -/
def decodePorts (op : Opcode) (arg : Word) : Except DecodeError Instr :=
  if op = opSeed then .ok (.seed arg)
  else if op = opWord then .ok (.word arg)
  else if op = opBool then .ok (.bool arg)
  else if op = opBounded then .ok (.bounded arg)
  else .error (.illegalOp op)

/-- Decoding of a 35-bit command word: total, each word one of the four commands or ILLEGAL_OP (R117). -/
def decode (cw : Command) : Except DecodeError Instr := decodePorts (Command.op cw) (Command.arg cw)

/-- The instruction of a word of the opcode table, bit 0 the least significant bit of the one command word; a number
with a bit above 34 is no command word (log 17). -/
def decodeTableWord (nbits w : Nat) : Option Instr :=
  if w % 2 ^ nbits < 2 ^ 35 then
    match decode (BitVec.ofNat 35 (w % 2 ^ nbits)) with
    | .ok i => some i
    | .error _ => none
  else none

/-- The opcode of a command, R104. -/
def opcodeOf : Instr → Opcode
  | .seed _ => opSeed
  | .word _ => opWord
  | .bool _ => opBool
  | .bounded _ => opBounded

/-- The argument of a command as its word carries it, R104. -/
def argumentOf : Instr → Word
  | .seed arg => arg
  | .word x => x
  | .bool x => x
  | .bounded n => n

/-- The command word of a command (R102, R104). -/
def encode (i : Instr) : Command := Command.make (opcodeOf i) (argumentOf i)

end Sys2Proof
end

