-- ==== Sys2Proof/Machine/State.lean ====
section
/-!
DEFINITION. The state of one engine instance with its sequencer, as plain data: the architectural triple `(mt, idx, seeded)`
(10_state.md rule R30), the sequencer's hidden registers (10_state.md rule R42, 44_sequencer.md rules R270, R281), the
host's inputs, and the reasons a step can stop.
-/

namespace Sys2Proof.Machine

/-- The sequencer states, one per encoding of the 3-bit register `fsm` (44_sequencer.md R270). -/
inductive Fsm where
  /-- 000: waits for a command. -/
  | idle
  /-- 001: the seeding chain. -/
  | seed
  /-- 010: regeneration check; reads and tempers one word. -/
  | draw
  /-- 011: regeneration. -/
  | twist
  /-- 100: forms the result; BOUNDED accepts or rejects. -/
  | post
  /-- 101: presents the response. -/
  | resp
  /-- 110: unused (R287). -/
  | unused6
  /-- 111: unused (R287). -/
  | unused7
deriving DecidableEq, Repr

/-- The response status codes (30_encoding.md R110). -/
inductive Status where
  /-- 00. -/
  | ok
  /-- 01. -/
  | invalidArgument
  /-- 10. -/
  | notSeeded
  /-- 11. -/
  | illegalOp
deriving DecidableEq, Repr

/-- The two levels of description of 00_scope.md R16: whether an accepted command runs to its response in the one step
that accepts it, or edge by edge. The MODEL's own; mark DESIGN CHOICE, safe, log 1. -/
inductive Level where
  /-- One step is one whole command. -/
  | transaction
  /-- One step is one rising clock edge. -/
  | cycle
deriving DecidableEq, Repr

/-- The block's input ports as one rising edge of `clk` samples them (30_encoding.md R100). -/
structure Pins where
  /-- `rst`. -/
  rst : Bool
  /-- `cmd_valid`. -/
  cmdValid : Bool
  /-- `cmd_op`. -/
  cmdOp : Opcode
  /-- `cmd_arg`. -/
  cmdArg : Word
  /-- `rsp_ready`. -/
  rspReady : Bool
deriving DecidableEq, Repr

/-- One engine instance. -/
structure State where
  /-- The state vector (R30, R34). -/
  mt : StateVec
  /-- The index counter (R31). -/
  idx : Idx
  /-- The seeded flag (R33). -/
  seeded : Bool
  /-- The sequencer state (R270). -/
  fsm : Fsm
  /-- Seeding index `i` in SEED, twist index `kk` in TWIST (R281). -/
  cnt : Idx
  /-- The last word written by the seeding chain (R281). -/
  prev : Word
  /-- `op_r`: opcode of the command in progress (R281). -/
  opR : Opcode
  /-- `arg_r`: argument of the command in progress (R281). -/
  argR : Word
  /-- `y_r`: tempered word of the last DRAW (R281). -/
  yR : Word
  /-- `st_r`: status of the pending response (R281). -/
  stR : Status
  /-- `data_r`: data of the pending response (R281). -/
  dataR : Word
  /-- Whether a reset has happened since power-up (70_reset_and_hazards.md R354, R355; log 5). -/
  wasReset : Bool
  /-- The level `step` moves by (00_scope.md R16; log 1). -/
  level : Level
  /-- The host's input pins at the coming rising edges, the next edge first; after the last the host is quiet (log 2). -/
  host : List Pins
deriving DecidableEq, Repr

/-- Why a step faults: states that no run from reset reaches, for which the spec's tables have no row. -/
inductive Fault where
  /-- Raised by the sequencer in SEED or TWIST with `cnt` at 624 or above: such an index names no word of `mt`
  (20_memory.md R71). Safe: the model stops where the spec gives no effect (log 9). -/
  | noWord
  /-- Raised by the sequencer in POST when `op_r` and `arg_r` hold no command that 44_sequencer.md R278 has a row for.
  Safe: the model stops where the spec gives no effect (log 9). -/
  | noPostRow
deriving DecidableEq, Repr

/-- Why a step is refused. -/
inductive Refusal where
  /-- Raised by an arm of `exec` whose instruction has no meaning yet. Safe: the model stops. No arm raises it. -/
  | notModelled (mnemonic : String)
  /-- Raised by a step without reset of a block that has never been reset: the spec gives it no meaning
  (70_reset_and_hazards.md R355, 93_implementation_defined.md "Power-up without reset"). Safe: the model stops (log 5). -/
  | beforeFirstReset
deriving DecidableEq, Repr

/-- The machine right after reset (10_state.md R44): `idx` 624, `seeded` 0, `fsm` IDLE. The spec leaves `mt` and the other
registers unspecified and unobservable; the model names zero for each (mark DESIGN CHOICE, unsafe, logs 3 and 4). -/
def State.reset : State where
  mt := Vector.replicate 624 0#32
  idx := 624#10
  seeded := false
  fsm := .idle
  cnt := 0#10
  prev := 0#32
  opR := 0#3
  argR := 0#32
  yR := 0#32
  stR := .ok
  dataR := 0#32
  wasReset := true
  level := .transaction
  host := []

end Sys2Proof.Machine
end

