-- ==== Sys2Proof/Machine/Ops.lean ====
section
/-!
DEFINITION. The named operations over the state: whole-word reads and writes of the state vector, latching a command,
ending a command (`respond`, `raise`), reset, the codes of the status and the sequencer registers, and the block's outputs.
-/

namespace Sys2Proof.Machine

/-- `mt[i]`, MemRead (00_scope.md R11, 20_memory.md R72). The index is taken mod N, which is how R174 forms its indices;
every other caller passes one below 624. -/
def readWord (mt : StateVec) (i : Nat) : Word := mt[Fin.ofNat 624 i]

/-- `mt[i] <- v`, MemWrite (00_scope.md R11, 20_memory.md R72), the index as in `readWord`. -/
def writeWord (mt : StateVec) (i : Nat) (v : Word) : StateVec := mt.set (Fin.ofNat 624 i) v

/-- Accepting a command latches it: `op_r <- cmd_op`, `arg_r <- cmd_arg` (44_sequencer.md R274). -/
def latch (op : Opcode) (arg : Word) (s : State) : State := { s with opR := op, argR := arg }

/-- `respond(status, data)`: the command ends and its response is presented (00_scope.md R13, 44_sequencer.md R273). -/
def respond (st : Status) (data : Word) (s : State) : State := { s with stR := st, dataR := data, fsm := .resp }

/-- `raise E`, the one shared error operation: the command ends with status `E`, data 0 and no other effect
(00_scope.md R12, 60_exceptions.md R315, R316: no trap, nothing saved, no vector). -/
def raise (e : Status) (s : State) : State := respond e 0#32 s

/-- A rising edge with `rst = 1`: `fsm`, `seeded` and `idx` take their reset values; `mt` and the other sequencer registers
are left as they are (70_reset_and_hazards.md R350, R351). -/
def resetEdge (s : State) : State := { s with fsm := .idle, seeded := false, idx := 624#10, wasReset := true }

/-- `rsp_status` codes (30_encoding.md R110). -/
def statusCode : Status → BitVec 2
  | .ok => 0b00#2
  | .invalidArgument => 0b01#2
  | .notSeeded => 0b10#2
  | .illegalOp => 0b11#2

/-- `fsm` encodings (44_sequencer.md R270). -/
def fsmCode : Fsm → BitVec 3
  | .idle => 0b000#3
  | .seed => 0b001#3
  | .draw => 0b010#3
  | .twist => 0b011#3
  | .post => 0b100#3
  | .resp => 0b101#3
  | .unused6 => 0b110#3
  | .unused7 => 0b111#3

/-- Output `cmd_ready`: 1 exactly when `fsm = IDLE` (44_sequencer.md R272; 90_conflicts.md C8). -/
def cmdReady (s : State) : Bool := decide (s.fsm = .idle)

/-- Output `rsp_valid`: 1 exactly when `fsm = RESP` (44_sequencer.md R273). -/
def rspValid (s : State) : Bool := decide (s.fsm = .resp)

/-- Output `rsp_status`: `st_r`, also while no response is presented (44_sequencer.md R273). -/
def rspStatus (s : State) : BitVec 2 := statusCode s.stR

/-- Output `rsp_data`: `data_r`, also while no response is presented (44_sequencer.md R273). -/
def rspData (s : State) : Word := s.dataR

/-- Output `seeded_o` (10_state.md R41, 44_sequencer.md R282). -/
def seededO (s : State) : BitVec 1 := BitVec.ofBool s.seeded

/-- Output `idx_o` (10_state.md R41, 44_sequencer.md R282). -/
def idxO (s : State) : Idx := s.idx

/-- The pins of an edge at which the host drives nothing. -/
def quietPins : Pins := { rst := false, cmdValid := false, cmdOp := 0#3, cmdArg := 0#32, rspReady := false }

/-- The pins of an edge at which the host offers a command. -/
def offerPins (op : Opcode) (arg : Word) : Pins := { quietPins with cmdValid := true, cmdOp := op, cmdArg := arg }

/-- The pins of an edge at which the host takes a response. -/
def takePins : Pins := { quietPins with rspReady := true }

/-- The pins of an edge at which the host resets the block. -/
def resetPins : Pins := { quietPins with rst := true }

/-- The pins the coming edge samples; a host whose script has ended is quiet (log 2). -/
def nextPins (s : State) : Pins :=
  match s.host with
  | [] => quietPins
  | p :: _ => p

/-- The state with the coming edge's pins taken off the host's script. -/
def popPins (s : State) : State := { s with host := s.host.tail }

end Sys2Proof.Machine
end

