-- ==== Sys2Proof/Machine/Operands.lean ====
section
/-!
DEFINITION. How a command's argument is read (30_encoding.md rules R106, R107) and the bit primitives of 00_scope.md rules
R8 to R10.
-/

namespace Sys2Proof.Machine

/-- `sint32(v)`: a 32-bit value as two's complement (00_scope.md R9). -/
def sint32 (v : Word) : Int := if v.toNat < 2147483648 then (v.toNat : Int) else (v.toNat : Int) - 4294967296

/-- `zext_32(b)` of one bit (00_scope.md R9). -/
def zext32 (b : Bool) : Word := if b then 1#32 else 0#32

/-- `v[k]` (00_scope.md R8). -/
def bitOf (v : Word) (k : Nat) : Bool := v.getLsbD k

/-- SEED's operand: all 32 bits, unsigned (R106). -/
def seedOperand (arg : Word) : Word := arg

/-- BOUNDED's operand: `n = sint32(arg)` (R106). -/
def boundOperand (arg : Word) : Int := sint32 arg

/-- The bound as the number that the draw rules divide by; they are reached only with `n >= 2` (43_bounded.md R240). -/
def boundNat (arg : Word) : Nat := (boundOperand arg).toNat

end Sys2Proof.Machine
end

