-- ==== Sys2Proof/Machine/Flags.lean ====
section
/-!
DEFINITION. The one flag, `seeded` (10_state.md rules R33, R38), and the checks a command meets when it is accepted, in the
priority of 60_exceptions.md rule R314.
-/

namespace Sys2Proof.Machine

/-- WORD, BOOL and BOUNDED read the flag (10_state.md R33). -/
def isDrawOp (op : Opcode) : Bool := op == opWord || op == opBool || op == opBounded

/-- The argument check of BOUNDED: `n <= 1` fails, on the signed value (43_bounded.md R241). -/
def badBound (arg : Word) : Bool := decide (boundOperand arg ≤ 1)

/-- The error a command ends with, if any: the first matching row of 44_sequencer.md R274, which is the priority of
60_exceptions.md R314 (ILLEGAL_OP, INVALID_ARGUMENT, NOT_SEEDED). -/
def commandError (op : Opcode) (arg : Word) (seeded : Bool) : Option Status :=
  if reservedOp op then some .illegalOp
  else if op == opBounded && badBound arg then some .invalidArgument
  else if isDrawOp op && !seeded then some .notSeeded
  else none

end Sys2Proof.Machine
end

