-- ==== Sys2Proof/Machine/Twist.lean ====
section
/-!
DEFINITION. Regeneration, the twist (41_regenerate.md).
-/

namespace Sys2Proof.Machine

/-- `twistMatrix`, the read-only two-entry table (10_state.md R39, 41_regenerate.md R172). -/
def twistMatrix (b : Bool) : Word := if b then Config.matrixA else 0x00000000#32

/-- `y` of the twist: bit 31 of `a`, bits 30..0 of `b` (41_regenerate.md R171). -/
def twistY (a b : Word) : Word := (a &&& Config.upperMask) ||| (b &&& Config.lowerMask)

/-- `twistWord(a, b, c)` (41_regenerate.md R171). -/
def twistWord (a b c : Word) : Word :=
  c ^^^ (twistY a b >>> 1) ^^^ twistMatrix (bitOf (twistY a b) 0)

/-- Step `kk` of the single-loop form (41_regenerate.md R174): indices mod N. -/
def twistStep (mt : StateVec) (kk : Nat) : StateVec :=
  writeWord mt kk (twistWord (readWord mt kk) (readWord mt (kk + 1)) (readWord mt (kk + 397)))

/-- Steps 0 to `k - 1` in ascending order, in place, each reading what the earlier ones wrote (41_regenerate.md R174, R175). -/
def twistTo (mt : StateVec) : Nat → StateVec
  | 0 => mt
  | k + 1 => twistStep (twistTo mt k) k

/-- One whole regeneration of the state vector (41_regenerate.md R174). -/
@[irreducible] def twistAll (mt : StateVec) : StateVec := twistTo mt 624

/-- The first range of R173, steps 0 to `k - 1`, `k <= 227`: reads `mt[kk + M]`. -/
def twistLow (mt : StateVec) : Nat → StateVec
  | 0 => mt
  | k + 1 =>
    let m := twistLow mt k
    writeWord m k (twistWord (readWord m k) (readWord m (k + 1)) (readWord m (k + 397)))

/-- The second range of R173, steps 227 to `227 + k - 1`, `k <= 396`: reads `mt[kk + (M - N)]`. -/
def twistMid (mt : StateVec) : Nat → StateVec
  | 0 => mt
  | k + 1 =>
    let m := twistMid mt k
    writeWord m (227 + k) (twistWord (readWord m (227 + k)) (readWord m (227 + k + 1)) (readWord m k))

/-- REGEN in the source's three ranges and in that order (41_regenerate.md R173). -/
def twistRanges (mt : StateVec) : StateVec :=
  let m := twistMid (twistLow mt 227) 396
  writeWord m 623 (twistWord (readWord m 623) (readWord m 0) (readWord m 396))

/-- REGEN (41_regenerate.md R173, R174, R176): the whole vector, then `idx <- 0`. The loop counter ends at 623 as the
reference sequencer leaves it (41_regenerate.md R177; log 7). -/
def regen (s : State) : State := { s with mt := twistAll s.mt, idx := 0#10, cnt := 623#10 }

end Sys2Proof.Machine
end

