-- ==== Sys2Proof/Machine/Draw.lean ====
section
/-!
DEFINITION. Tempering, the draw and the commands WORD and BOOL (42_draw.md).
-/

namespace Sys2Proof.Machine

/-- Stage 1 of the tempering (42_draw.md R200). -/
def temper1 (y : Word) : Word := y ^^^ (y >>> 11)

/-- Stage 2 (R200). -/
def temper2 (t1 : Word) : Word := t1 ^^^ ((t1 <<< 7) &&& Config.temperingMaskB)

/-- Stage 3 (R200). -/
def temper3 (t2 : Word) : Word := t2 ^^^ ((t2 <<< 15) &&& Config.temperingMaskC)

/-- Stage 4 (R200). -/
def temper4 (t3 : Word) : Word := t3 ^^^ (t3 >>> 18)

/-- `temper(y)`: the four stages in their fixed order (R200, R201). -/
def temper (y : Word) : Word := temper4 (temper3 (temper2 (temper1 y)))

/-- The exhausted test `idx >= N`: every value 624..1023 counts as exhausted (10_state.md R32, 44_sequencer.md R280). -/
def exhausted (s : State) : Bool := decide (624 ≤ s.idx.toNat)

/-- The start of a draw: REGEN when, and only when, the state is exhausted (41_regenerate.md R170). -/
def refill (s : State) : State := if exhausted s then regen s else s

/-- The rest of a draw: `y_r <- temper(mt[idx])`, `idx <- idx + 1` (42_draw.md R204, 44_sequencer.md R276). -/
def takeWord (s : State) : State := { s with yR := temper (readWord s.mt s.idx.toNat), idx := s.idx + 1#10 }

/-- DRAW, the one shared path by which every command obtains a word (42_draw.md R204); the word is in `yR`. -/
def draw (s : State) : State := takeWord (refill s)

/-- WORD (42_draw.md R205). -/
def execWord (x : Word) (s : State) : Host.Outcome State Fault Refusal :=
  let s := latch opWord x s
  if s.seeded then
    let d := draw s
    .next (respond .ok d.yR d)
  else .next (raise .notSeeded s)

/-- BOOL (42_draw.md R206). -/
def execBool (x : Word) (s : State) : Host.Outcome State Fault Refusal :=
  let s := latch opBool x s
  if s.seeded then
    let d := draw s
    .next (respond .ok (zext32 (bitOf d.yR 31)) d)
  else .next (raise .notSeeded s)

end Sys2Proof.Machine
end

