-- ==== Sys2Proof/Machine/Bounded.lean ====
section
/-!
DEFINITION. The bounded draw BOUNDED (43_bounded.md): the power-of-two test, the two mappings, the rejection loop.
Arithmetic is on unbounded integers (43_bounded.md rule R240, 92_eei_decisions.md D25).
-/

namespace Sys2Proof.Machine

/-- `isPow2(n)` by the source's test `n & (n - 1) == 0` (43_bounded.md R242). -/
def isPow2 (n : Nat) : Bool := (n &&& (n - 1)) == 0

/-- `bits = w >>> 1`, in `[0, 2^31)` (43_bounded.md R240). -/
def bitsOf (w : Word) : Nat := (w >>> 1).toNat

/-- Case A: `floor(n * bits / 2^31) + 1` (43_bounded.md R243; the `+ 1` is 90_conflicts.md C1, log 12). -/
def caseA (n bits : Nat) : Nat := n * bits / 2147483648 + 1

/-- The accept test of Case B: `bits - val + (n - 1)` is at most `2^31 - 1` (43_bounded.md R240, R244). -/
def accepts (n bits : Nat) : Bool := decide (bits - bits % n + (n - 1) ≤ 2147483647)

/-- Case B's result for an accepted word: `val + 1` (43_bounded.md R244). -/
def caseB (n bits : Nat) : Nat := bits % n + 1

/-- At most `k` passes of the rejection loop of Case B: each draws one word and answers if the word is accepted. When the
passes run out the loop is left in progress, in DRAW with no response: that is not a result, and the following steps go
on drawing (43_bounded.md R244, R249; log 6). -/
def rejectionLoop (n : Nat) : Nat → State → State
  | 0, s => { s with fsm := .draw }
  | k + 1, s =>
    let d := draw s
    if accepts n (bitsOf d.yR) then respond .ok (BitVec.ofNat 32 (caseB n (bitsOf d.yR))) d
    else rejectionLoop n k d

/-- BOUNDED (43_bounded.md R240): the argument check first, then the flag, then Case A or Case B. -/
def execBounded (arg : Word) (s : State) : Host.Outcome State Fault Refusal :=
  let s := latch opBounded arg s
  if badBound arg then .next (raise .invalidArgument s)
  else if s.seeded then
    if isPow2 (boundNat arg) then
      let d := draw s
      .next (respond .ok (BitVec.ofNat 32 (caseA (boundNat arg) (bitsOf d.yR))) d)
    else .next (rejectionLoop (boundNat arg) Config.loopPasses s)
  else .next (raise .notSeeded s)

end Sys2Proof.Machine
end

