-- ==== Sys2Proof/Machine/Seed.lean ====
section
/-!
DEFINITION. Seeding: the step function, the chain over the state vector and the SEED command (40_seed.md).
-/

namespace Sys2Proof.Machine

/-- The seeding step `initStep(prev, i)` (40_seed.md R141): 32-bit multiply and add, wrapping. -/
def initStep (prev : Word) (i : Nat) : Word :=
  Config.initMult * (prev ^^^ (prev >>> 30)) + BitVec.ofNat 32 i

/-- The state vector after `mt[0]` and the first `k` steps of the chain are written, in ascending order, each step reading
the word written before it (40_seed.md R140, R142). -/
def seedTo (seed : Word) (mt : StateVec) : Nat → StateVec
  | 0 => writeWord mt 0 seed
  | k + 1 =>
    let m := seedTo seed mt k
    writeWord m (k + 1) (initStep (readWord m k) (k + 1))

/-- The whole chain, `mt[0]` to `mt[623]` (40_seed.md R140). -/
@[irreducible] def seedVec (seed : Word) (mt : StateVec) : StateVec := seedTo seed mt 623

/-- SEED (40_seed.md R140): sets the whole engine state, whatever it was, and never fails. The hidden registers `cnt` and
`prev` end as the reference sequencer leaves them (44_sequencer.md R275; log 7). -/
def execSeed (arg : Word) (s : State) : Host.Outcome State Fault Refusal :=
  let mt := seedVec (seedOperand arg) s.mt
  .next (respond .ok 0#32
    { latch opSeed arg s with mt := mt, idx := 624#10, seeded := true, cnt := 623#10, prev := readWord mt 623 })

end Sys2Proof.Machine
end

