-- ==== Sys2Proof/Machine/Dispatch.lean ====
section
/-!
DEFINITION. One arm per command of 30_encoding.md rule R104: the transaction-level effect of the command once the
sequencer has accepted it (00_scope.md rule R16).
-/

namespace Sys2Proof.Machine

def exec (i : Instr) (s : State) : Host.Outcome State Fault Refusal :=
  match i with
  | .seed arg => Sys2Proof.Machine.execSeed arg s
  | .word x => Sys2Proof.Machine.execWord x s
  | .bool x => Sys2Proof.Machine.execBool x s
  | .bounded n => Sys2Proof.Machine.execBounded n s

end Sys2Proof.Machine
end

