-- ==== Sys2Proof/Machine/Sequencer.lean ====
section
/-!
DEFINITION. The sequencer at the cycle level (44_sequencer.md rules R270 to R287, 41_regenerate.md rule R177): what one
rising edge of `clk` does in each state of `fsm`, and the step of the model, which takes the host's pins for the coming
edge and runs either that edge or, at the transaction level, the whole command the edge accepts.
-/

namespace Sys2Proof.Machine

/-- The edge in IDLE that accepts a command (44_sequencer.md R274): the command is latched, then the first matching row
decides. -/
def acceptEdge (op : Opcode) (arg : Word) (s : State) : State :=
  let s := latch op arg s
  match commandError op arg s.seeded with
  | some e => raise e s
  | none =>
    if op == opSeed then
      { s with mt := writeWord s.mt 0 arg, prev := arg, cnt := 1#10, idx := 624#10, seeded := false, fsm := .seed }
    else { s with fsm := .draw }

/-- The edge in IDLE (44_sequencer.md R274): without `cmd_valid` nothing happens. -/
def idleEdge (p : Pins) (s : State) : State := if p.cmdValid then acceptEdge p.cmdOp p.cmdArg s else s

/-- The edge in SEED (44_sequencer.md R275): one step of the chain. A `cnt` that names no word is unreachable (log 9). -/
def seedEdge (s : State) : Host.Outcome State Fault Refusal :=
  if 624 ≤ s.cnt.toNat then .fault .noWord
  else
    let v := initStep s.prev s.cnt.toNat
    let t := { s with mt := writeWord s.mt s.cnt.toNat v, prev := v }
    if s.cnt.toNat = 623 then .next (respond .ok 0#32 { t with seeded := true })
    else .next { t with cnt := s.cnt + 1#10 }

/-- The edge in DRAW (44_sequencer.md R276, 41_regenerate.md R177). -/
def drawEdge (s : State) : State :=
  if exhausted s then { s with cnt := 0#10, fsm := .twist } else { takeWord s with fsm := .post }

/-- The edge in TWIST (44_sequencer.md R277, 41_regenerate.md R177): one twist step. A `cnt` that names no word is
unreachable (log 9). -/
def twistEdge (s : State) : Host.Outcome State Fault Refusal :=
  if 624 ≤ s.cnt.toNat then .fault .noWord
  else
    let t := { s with mt := twistStep s.mt s.cnt.toNat }
    if s.cnt.toNat = 623 then .next { t with idx := 0#10, fsm := .draw }
    else .next { t with cnt := s.cnt + 1#10 }

/-- The edge in POST for BOUNDED (44_sequencer.md R278, last three rows). -/
def postBounded (s : State) : State :=
  let n := boundNat s.argR
  let bits := bitsOf s.yR
  if isPow2 n then respond .ok (BitVec.ofNat 32 (caseA n bits)) s
  else if accepts n bits then respond .ok (BitVec.ofNat 32 (caseB n bits)) s
  else { s with fsm := .draw }

/-- The edge in POST, by `op_r` (44_sequencer.md R278). Any other `op_r`, or a bound that R274 would have refused, is
unreachable and has no row (log 9). -/
def postEdge (s : State) : Host.Outcome State Fault Refusal :=
  if s.opR = opWord then .next (respond .ok s.yR s)
  else if s.opR = opBool then .next (respond .ok (zext32 (bitOf s.yR 31)) s)
  else if s.opR = opBounded ∧ badBound s.argR = false then .next (postBounded s)
  else .fault .noPostRow

/-- The edge in RESP (44_sequencer.md R279): the response is taken, or held. -/
def respEdge (p : Pins) (s : State) : State := if p.rspReady then { s with fsm := .idle } else s

/-- The edge in an unused encoding of `fsm` (44_sequencer.md R287). -/
def upsetEdge (s : State) : State := { s with fsm := .idle, seeded := false }

/-- One rising edge of `clk` with `rst = 0` after the first reset, by the sequencer state. -/
def runEdge (p : Pins) (s : State) : Host.Outcome State Fault Refusal :=
  match s.fsm with
  | .idle => .next (idleEdge p s)
  | .seed => seedEdge s
  | .draw => .next (drawEdge s)
  | .twist => twistEdge s
  | .post => postEdge s
  | .resp => .next (respEdge p s)
  | .unused6 => .next (upsetEdge s)
  | .unused7 => .next (upsetEdge s)

/-- One rising edge of `clk`: reset overrides every transition (70_reset_and_hazards.md R350); a block never reset has no
meaning (R355); otherwise the sequencer moves. -/
def edge (p : Pins) (s : State) : Host.Outcome State Fault Refusal :=
  if p.rst then .next (resetEdge s)
  else if s.wasReset then runEdge p s
  else .refused .beforeFirstReset

/-- A run of edges with the given pins, the first edge first. -/
def edges : List Pins → State → Host.Outcome State Fault Refusal
  | [], s => .next s
  | p :: ps, s =>
    match edge p s with
    | .next t => edges ps t
    | .fault r => .fault r
    | .refused r => .refused r

/-- A reserved opcode: response ILLEGAL_OP, data 0, no other effect (30_encoding.md R105, 60_exceptions.md R313). -/
def illegalCommand (op : Opcode) (arg : Word) (s : State) : State := raise .illegalOp (latch op arg s)

/-- A whole accepted command (00_scope.md R16, transaction level): decoded, then run. -/
def transact (op : Opcode) (arg : Word) (s : State) : Host.Outcome State Fault Refusal :=
  match decodePorts op arg with
  | .ok i => exec i s
  | .error (.illegalOp op) => .next (illegalCommand op arg s)

/-- Whether the coming edge accepts a command: `rst = 0`, `cmd_valid = 1`, `cmd_ready = 1` (30_encoding.md R101), after the
first reset. -/
def accepting (p : Pins) (s : State) : Bool := !p.rst && s.wasReset && p.cmdValid && cmdReady s

/-- One step of the model: the coming edge's pins are taken off the host's script; at the transaction level an edge that
accepts a command runs it whole, and every other edge is one edge of the sequencer (log 1). -/
def advance (s : State) : Host.Outcome State Fault Refusal :=
  let p := nextPins s
  if s.level = .transaction ∧ accepting p s = true then transact p.cmdOp p.cmdArg (popPins s)
  else edge p (popPins s)

/-- The host's act of presenting a command word at the next edge of a block that can take it: reset done, IDLE, whole
commands. The word's fields go to `cmd_op` and `cmd_arg` (30_encoding.md R100, R102; log 8). -/
def present (cw : Command) (s : State) : State :=
  { s with
    host := offerPins (Command.op cw) (Command.arg cw) :: s.host
    fsm := .idle
    wasReset := true
    level := .transaction }

end Sys2Proof.Machine
end

