-- ==== Sys2Proof/Machine/Step.lean ====
section
/-!
DEFINITION. The machine's step, and how a command word is placed where the step takes its next command.
-/

namespace Sys2Proof.Machine

/-- One step of the machine. -/
def step (s : State) : Host.Outcome State Fault Refusal := advance s

/-- The state in which the very next step accepts and runs the command whose word is `w`: the host offers it at the next
edge. The block fetches nothing (10_state.md R37); commands are pushed by the host (log 8). -/
def State.withFetchWord (s : State) (nbits w : Nat) : State := present (BitVec.ofNat 35 (w % 2 ^ nbits)) s

end Sys2Proof.Machine
end

