-- ==== Sys2Proof/Machine/Assembler.lean ====
section
/-!
DEFINITION. The assembler and disassembler of 30_encoding.md rules R103, R113, R114 and R115. Text is a list of characters.
What the grammar does not say (white space, the letter case of `.cmd` and of hexadecimal digits) is log 10.
-/

namespace Sys2Proof.Machine

/-- Why a source line is no command (R113, R114). -/
inductive AsmError where
  /-- The line does not fit the grammar of R113. -/
  | badLine
  /-- A BOUNDED operand outside the signed 32-bit range (R114). -/
  | boundedRange
  /-- A `.cmd` opcode outside 0..7 (R113). -/
  | opRange
  /-- A `.cmd` argument above 2^32 - 1 (R113). -/
  | argRange
deriving DecidableEq, Repr

/-- An integer taken mod 2^32 (R113, R114, 40_seed.md R148). -/
def truncate32 (v : Int) : Word := BitVec.ofInt 32 v

/-- The command word of a source line. `timeMs` is the host's wall-clock time when it issues the command: a free input
(R115, 40_seed.md R146). -/
def assemble (timeMs : Nat) : Asm → Except AsmError Command
  | .seed v => .ok (encode (.seed (truncate32 v)))
  | .word => .ok (encode (.word 0#32))
  | .bool => .ok (encode (.bool 0#32))
  | .bounded v => if boundedOperandOk v then .ok (encode (.bounded (truncate32 v))) else .error .boundedRange
  | .seedDefault => .ok (encode (.seed (truncate32 (timeMs : Int))))
  | .raw op arg =>
    if rawOpOk op then
      if rawArgOk arg then .ok (Command.make (BitVec.ofInt 3 op) (truncate32 arg)) else .error .argRange
    else .error .opRange

/-- The pseudo-instruction expanded, as a listing shows it (R115). -/
def expandPseudo (timeMs : Nat) : Asm → Asm
  | .seedDefault => .seed ((timeMs % 4294967296 : Nat) : Int)
  | a => a

/-- The source line a disassembler prints for a command word (R114). -/
def disassemble (cw : Command) : Asm :=
  match decode cw with
  | .ok (.seed arg) => .seed (arg.toNat : Int)
  | .ok (.word _) => .word
  | .ok (.bool _) => .bool
  | .ok (.bounded n) => .bounded (sint32 n)
  | .error (.illegalOp op) => .raw (op.toNat : Int) ((Command.arg cw).toNat : Int)

/-- The value of a digit, decimal or hexadecimal in either case. -/
def digitVal (c : Char) : Option Nat :=
  if '0' ≤ c ∧ c ≤ '9' then some (c.toNat - 48)
  else if 'a' ≤ c ∧ c ≤ 'f' then some (c.toNat - 87)
  else if 'A' ≤ c ∧ c ≤ 'F' then some (c.toNat - 55)
  else none

/-- The number a digit string spells in a base, after what stood before it. -/
def numeral (base : Nat) : List Char → Nat → Option Nat
  | [], acc => some acc
  | c :: cs, acc =>
    match digitVal c with
    | some d => if d < base then numeral base cs (acc * base + d) else none
    | none => none

/-- `value := [ "-" ] decimal | "0x" hex` (R113). -/
def parseValue : List Char → Option Int
  | [] => none
  | ['-'] => none
  | '-' :: cs => (numeral 10 cs 0).map (fun n => -(n : Int))
  | ['0', 'x'] => none
  | '0' :: 'x' :: cs => (numeral 16 cs 0).map (fun n => (n : Int))
  | cs => (numeral 10 cs 0).map (fun n => (n : Int))

/-- A finished token, if it has a character. -/
def flushToken (cur : List Char) (rest : List (List Char)) : List (List Char) :=
  if cur.isEmpty then rest else cur.reverse :: rest

/-- The tokens of a line: white space separates, a comma is a token, a `;` ends the line (R113). -/
def tokens : List Char → List Char → List (List Char)
  | [], cur => flushToken cur []
  | c :: cs, cur =>
    if c = ';' then flushToken cur []
    else if c = ' ' ∨ c = '\t' ∨ c = '\r' ∨ c = '\n' then flushToken cur (tokens cs [])
    else if c = ',' then flushToken cur ([','] :: tokens cs [])
    else tokens cs (c :: cur)

/-- A token in capitals: mnemonics are case-insensitive (R113). -/
def upper (t : List Char) : List Char := t.map Char.toUpper

/-- A line without operands. -/
def parseBare (m : List Char) : Except AsmError (Option Asm) :=
  if upper m = ['W', 'O', 'R', 'D'] then .ok (some .word)
  else if upper m = ['B', 'O', 'O', 'L'] then .ok (some .bool)
  else if upper m = ['S', 'E', 'E', 'D', '_', 'D', 'E', 'F', 'A', 'U', 'L', 'T'] then .ok (some .seedDefault)
  else .error .badLine

/-- A line with one operand. -/
def parseOne (m v : List Char) : Except AsmError (Option Asm) :=
  match parseValue v with
  | none => .error .badLine
  | some k =>
    if upper m = ['S', 'E', 'E', 'D'] then .ok (some (.seed k))
    else if upper m = ['B', 'O', 'U', 'N', 'D', 'E', 'D'] then .ok (some (.bounded k))
    else .error .badLine

/-- A `.cmd` line. -/
def parseRaw (m v c w : List Char) : Except AsmError (Option Asm) :=
  if upper m = ['.', 'C', 'M', 'D'] ∧ c = [','] then
    match parseValue v, parseValue w with
    | some op, some arg => .ok (some (.raw op arg))
    | _, _ => .error .badLine
  else .error .badLine

/-- The command of a source line, none for a blank or comment line (R113). -/
def parseLine (line : List Char) : Except AsmError (Option Asm) :=
  match tokens line [] with
  | [] => .ok none
  | [m] => parseBare m
  | [m, v] => parseOne m v
  | [m, v, c, w] => parseRaw m v c w
  | _ => .error .badLine

/-- A source line to its command word, if it holds a command. -/
def assembleLine (timeMs : Nat) (line : List Char) : Except AsmError (Option Command) :=
  match parseLine line with
  | .error e => .error e
  | .ok none => .ok none
  | .ok (some a) =>
    match assemble timeMs a with
    | .error e => .error e
    | .ok cw => .ok (some cw)

/-- The character of a digit below 16. -/
def digitChar (d : Nat) : Char := if d < 10 then Char.ofNat (48 + d) else Char.ofNat (87 + d)

/-- The digits of a number in a base, before what stands after it; `fuel` is at least their number. -/
def digitsOnto (base : Nat) : Nat → Nat → List Char → List Char
  | 0, _, acc => acc
  | fuel + 1, n, acc =>
    if n < base then digitChar n :: acc else digitsOnto base fuel (n / base) (digitChar (n % base) :: acc)

/-- A number in a base, without leading zeros. -/
def spellNat (base n : Nat) : List Char := digitsOnto base (Nat.log2 n + 1) n []

/-- An integer in signed decimal. -/
def spellInt (v : Int) : List Char := if v < 0 then '-' :: spellNat 10 v.natAbs else spellNat 10 v.natAbs

/-- The text of a source line; a raw argument in hexadecimal, as the disassembler prints it (R114). -/
def printAsm : Asm → List Char
  | .seed v => ['S', 'E', 'E', 'D', ' '] ++ spellInt v
  | .word => ['W', 'O', 'R', 'D']
  | .bool => ['B', 'O', 'O', 'L']
  | .bounded v => ['B', 'O', 'U', 'N', 'D', 'E', 'D', ' '] ++ spellInt v
  | .seedDefault => ['S', 'E', 'E', 'D', '_', 'D', 'E', 'F', 'A', 'U', 'L', 'T']
  | .raw op arg =>
    ['.', 'c', 'm', 'd', ' '] ++ spellInt op ++ [',', ' ', '0', 'x'] ++ spellNat 16 (truncate32 arg).toNat

/-- What the disassembler prints for a command word (R114). -/
def disassembleText (cw : Command) : List Char := printAsm (disassemble cw)

/-- The nine-digit hexadecimal spelling of a command word (R103). -/
def spellCommand (cw : Command) : List Char :=
  ['0', 'x'] ++ ([8, 7, 6, 5, 4, 3, 2, 1, 0].map fun k => digitChar (cw.toNat / 16 ^ k % 16))

end Sys2Proof.Machine
end

