-- ==== Sys2Proof/Safety.lean ====
section
/-!
DEFINITION. The terms claims are stated in: the architectural view of a state, its response, the sequence of words a seed
gives, repeated draws, the invariants of the machine, and the view that leaves the unspecified reset contents out.
-/

namespace Sys2Proof.Machine

/-- The architectural state, the triple `(mt, idx, seeded)` (10_state.md R30). -/
structure Arch where
  /-- The state vector. -/
  mt : StateVec
  /-- The index counter. -/
  idx : Idx
  /-- The seeded flag. -/
  seeded : Bool
deriving DecidableEq, Repr

/-- The architectural state of a machine state (10_state.md R30). -/
def arch (s : State) : Arch := { mt := s.mt, idx := s.idx, seeded := s.seeded }

/-- The response a state presents: `rsp_status` and `rsp_data` while `rsp_valid = 1` (44_sequencer.md R273). -/
def response (s : State) : Option (Status × Word) := if s.fsm = .resp then some (s.stR, s.dataR) else none

/-- The state after a whole command (00_scope.md R16); where the command does not run, the state it was. -/
def afterCommand (op : Opcode) (arg : Word) (s : State) : State :=
  match transact op arg s with
  | .next t => t
  | .fault _ => s
  | .refused _ => s

/-- The responses of a stream of commands, each run whole, in their order (20_memory.md R80). -/
def responses : List (Opcode × Word) → State → List (Option (Status × Word))
  | [], _ => []
  | c :: cs, s => response (afterCommand c.1 c.2 s) :: responses cs (afterCommand c.1 c.2 s)

/-- The architectural state after a stream of commands, each run whole. -/
def afterStream : List (Opcode × Word) → State → State
  | [], s => s
  | c :: cs, s => afterStream cs (afterCommand c.1 c.2 s)

/-- Whether a response is an OK response. -/
def isOk : Option (Status × Word) → Bool
  | some (.ok, _) => true
  | _ => false

/-- `k` draws one after another (42_draw.md R204). -/
def drawTimes : Nat → State → State
  | 0, s => s
  | k + 1, s => drawTimes k (draw s)

/-- The word that draw number `k + 1` from a state gives. -/
def drawnAt (s : State) (k : Nat) : Word := (drawTimes (k + 1) s).yR

/-- How many of the next `k` draws regenerate (44_sequencer.md R284). -/
def regensIn : Nat → State → Nat
  | 0, _ => 0
  | k + 1, s => (if exhausted s then 1 else 0) + regensIn k (draw s)

/-- Case B rejects the first `j` words drawn and accepts the next (43_bounded.md R248). -/
def FirstAccepted (n j : Nat) (s : State) : Prop :=
  (∀ i, i < j → accepts n (bitsOf (drawnAt s i)) = false) ∧ accepts n (bitsOf (drawnAt s j)) = true

/-- The state vector after SEED and `g` regenerations (40_seed.md R140, 41_regenerate.md R180). -/
def batch (seed : Word) : Nat → StateVec
  | 0 => seedVec seed (Vector.replicate 624 0#32)
  | g + 1 => twistAll (batch seed g)

/-- The word of draw number `k`, counted from 1, after SEED: it reads `mt[(k - 1) mod 624]` of the state left by
regeneration number `floor((k - 1) / 624) + 1` (41_regenerate.md R180). -/
def wordOfDraw (seed : Word) (k : Nat) : Word := temper (readWord (batch seed ((k - 1) / 624 + 1)) ((k - 1) % 624))

/-- The engine has drawn exactly `k` words since the SEED with this seed (41_regenerate.md R180, 42_draw.md R207). -/
structure Drawn (seed : Word) (k : Nat) (s : State) : Prop where
  /-- A SEED has completed. -/
  seeded : s.seeded = true
  /-- The vector is the seeded one before the first draw, then that of the last regeneration. -/
  mt : s.mt = batch seed (if k = 0 then 0 else (k - 1) / 624 + 1)
  /-- The cursor is exhausted before the first draw, then one past the word last read. -/
  idx : s.idx.toNat = if k = 0 then 624 else (k - 1) % 624 + 1

/-- A command that gets past the checks of 44_sequencer.md R274 into DRAW. -/
def drawCommand (op : Opcode) (arg : Word) : Bool :=
  op == opWord || op == opBool || (op == opBounded && !badBound arg)

/-- The machine's invariant: what holds of every state a reset block reaches (10_state.md R32, R45; 44_sequencer.md R274 to
R279, R287; 70_reset_and_hazards.md R354). -/
structure Inv (s : State) : Prop where
  /-- The block has been reset. -/
  reset : s.wasReset = true
  /-- The cursor never exceeds 624 (R32). -/
  idxLe : s.idx.toNat ≤ 624
  /-- In SEED: the chain stands at word `cnt`, `prev` holds the word before it, the flag is down, the cursor is at N. -/
  inSeed : s.fsm = .seed → s.opR = opSeed ∧ 1 ≤ s.cnt.toNat ∧ s.cnt.toNat ≤ 623 ∧ s.seeded = false ∧ s.idx = 624#10 ∧
    s.prev = readWord s.mt (s.cnt.toNat - 1)
  /-- In DRAW: a draw command that passed its checks is in progress. -/
  inDraw : s.fsm = .draw → drawCommand s.opR s.argR = true ∧ s.seeded = true
  /-- In TWIST: likewise, the cursor is at N and the loop counter names a word. -/
  inTwist : s.fsm = .twist → drawCommand s.opR s.argR = true ∧ s.seeded = true ∧ s.cnt.toNat ≤ 623 ∧ s.idx = 624#10
  /-- In POST: likewise, and `y_r` is the tempered word before the cursor. -/
  inPost : s.fsm = .post → drawCommand s.opR s.argR = true ∧ s.seeded = true ∧ 1 ≤ s.idx.toNat ∧
    s.yR = temper (readWord s.mt (s.idx.toNat - 1))
  /-- The unused encodings are not held (R287). -/
  used : s.fsm ≠ .unused6 ∧ s.fsm ≠ .unused7

/-- The content invariant (10_state.md R45, R143; 40_seed.md R142): while seeding, the words written so far are those of the
seed in progress; while seeded, the vector is that of some seed after some number of regenerations, in TWIST partly through
the next. -/
structure Content (s : State) : Prop where
  /-- In SEED the words below `cnt` are the chain's. -/
  seeding : s.fsm = .seed → ∀ i, i < s.cnt.toNat → readWord s.mt i = readWord (batch s.argR 0) i
  /-- A seeded block holds a vector of the sequence of its seed. -/
  genuine : s.seeded = true → ∃ seed g,
    s.mt = if s.fsm = .twist then twistTo (batch seed g) s.cnt.toNat else batch seed g

/-- Two states that differ only in what the spec leaves unspecified after reset and in hidden registers that no coming edge
reads: `mt` while unseeded, and the hidden registers outside the states that read them (10_state.md R43, R44). -/
structure Alike (s t : State) : Prop where
  /-- The registers and inputs that are always specified. -/
  same : s.fsm = t.fsm ∧ s.idx = t.idx ∧ s.seeded = t.seeded ∧ s.wasReset = t.wasReset ∧ s.level = t.level ∧ s.host = t.host
  /-- The command in progress. -/
  command : s.fsm ≠ .idle → s.opR = t.opR ∧ s.argR = t.argR
  /-- The response presented. -/
  response : s.fsm = .resp → s.stR = t.stR ∧ s.dataR = t.dataR
  /-- The vector of a seeded block. -/
  vector : s.seeded = true → s.mt = t.mt
  /-- The seeding chain in progress. -/
  chain : s.fsm = .seed → s.cnt = t.cnt ∧ s.prev = t.prev ∧ ∀ i, i < s.cnt.toNat → readWord s.mt i = readWord t.mt i
  /-- The regeneration in progress. -/
  twist : s.fsm = .twist → s.cnt = t.cnt
  /-- The word just drawn. -/
  word : s.fsm = .post → s.yR = t.yR

end Sys2Proof.Machine
end

