-- ==== Sys2Proof/Certificates/Slice0/Obligations.lean ====
section
/-!
DEFINITION. The statements for the provers, each from the numbered rules of the spec.
-/

open Sys2Proof Sys2Proof.Machine

/-! ### Encoding -/

/-- 30_encoding.md R117 with R104, R105: every word is an opcode and an argument, and decodes by `op` alone to exactly one
of the four commands or to ILLEGAL_OP. -/
def Obligations.DecodingIsTotalByOpcode : Prop :=
  (∀ cw : Command, ∃ op arg, cw = Command.make op arg) ∧
  ∀ (op : Opcode) (arg : Word), decode (Command.make op arg) =
    if op = 0b001#3 then .ok (.seed arg)
    else if op = 0b010#3 then .ok (.word arg)
    else if op = 0b011#3 then .ok (.bool arg)
    else if op = 0b100#3 then .ok (.bounded arg)
    else .error (.illegalOp op)

/-- Decode and encode agree in both directions (30_encoding.md R102, R104, R117). -/
def Obligations.EncodeDecodeRoundTrip : Prop :=
  (∀ i : Instr, i.wellFormed = true → decode (encode i) = .ok i) ∧
  (∀ (cw : Command) (i : Instr), decode cw = .ok i → encode i = cw) ∧
  (∀ (cw : Command) (op : Opcode), decode cw = .error (.illegalOp op) → op = Command.op cw ∧ reservedOp op = true)

/-- 30_encoding.md R103: a command word is `op * 2^32 + arg`, and its spelling is `0x` and nine hexadecimal digits that read
back as that value. -/
def Obligations.CommandWordSpelling : Prop :=
  ∀ (op : Opcode) (arg : Word), ∃ digits, spellCommand (Command.make op arg) = '0' :: 'x' :: digits ∧ digits.length = 9 ∧
    numeral 16 digits 0 = some (op.toNat * 4294967296 + arg.toNat)

/-- 30_encoding.md R116: the spec's example source lines, the words they assemble to, and those words' fields. -/
def Obligations.ExampleWordsDecode : Prop :=
  (∀ timeMs : Nat,
    assemble timeMs (.seed 5489) = .ok 0x100001571#35 ∧ assemble timeMs (.seed 0) = .ok 0x100000000#35 ∧
    assemble timeMs (.seed (-1)) = .ok 0x1ffffffff#35 ∧ assemble timeMs .word = .ok 0x200000000#35 ∧
    assemble timeMs .bool = .ok 0x300000000#35 ∧ assemble timeMs (.bounded 6) = .ok 0x400000006#35 ∧
    assemble timeMs (.bounded 1024) = .ok 0x400000400#35 ∧ assemble timeMs (.bounded (-5)) = .ok 0x4fffffffb#35 ∧
    assemble timeMs (.raw 5 0) = .ok 0x500000000#35) ∧
  decode 0x100001571#35 = .ok (.seed 0x00001571#32) ∧ decode 0x100000000#35 = .ok (.seed 0x00000000#32) ∧
  decode 0x1ffffffff#35 = .ok (.seed 0xffffffff#32) ∧ decode 0x200000000#35 = .ok (.word 0x00000000#32) ∧
  decode 0x300000000#35 = .ok (.bool 0x00000000#32) ∧ decode 0x400000006#35 = .ok (.bounded 0x00000006#32) ∧
  decode 0x400000400#35 = .ok (.bounded 0x00000400#32) ∧ decode 0x4fffffffb#35 = .ok (.bounded 0xfffffffb#32) ∧
  decode 0x500000000#35 = .error (.illegalOp 0b101#3) ∧ Command.arg 0x500000000#35 = 0x00000000#32

/-- 30_encoding.md R114, first part, and 40_seed.md R148: how the assembler reads SEED's and BOUNDED's operands. -/
def Obligations.AssemblerOperandRanges : Prop :=
  ∀ (timeMs : Nat) (v : Int),
    (∃ w : Word, assemble timeMs (.seed v) = .ok (Command.make opSeed w) ∧ (w.toNat : Int) = v % 4294967296) ∧
    (-2147483648 ≤ v ∧ v ≤ 2147483647 →
      ∃ w : Word, assemble timeMs (.bounded v) = .ok (Command.make opBounded w) ∧ sint32 w = v) ∧
    (¬(-2147483648 ≤ v ∧ v ≤ 2147483647) → ∃ e, assemble timeMs (.bounded v) = .error e)

/-- 30_encoding.md R113, R114: assembling what the disassembler prints gives the word back, but for the don't-care bits of
WORD and BOOL, which are assembled as 0. -/
def Obligations.DisassemblyReassembles : Prop :=
  ∀ (timeMs : Nat) (cw : Command), assemble timeMs (disassemble cw) =
    .ok (if Command.op cw = opWord ∨ Command.op cw = opBool then Command.make (Command.op cw) 0#32 else cw)

/-- 30_encoding.md R115, 40_seed.md R146, R147: SEED_DEFAULT is SEED of the host's time mod 2^32, so times equal mod 2^32
give the same command. -/
def Obligations.SeedDefaultIsSeedOfTime : Prop :=
  ∀ timeMs : Nat, assemble timeMs .seedDefault = assemble timeMs (expandPseudo timeMs .seedDefault) ∧
    (∃ w : Word, assemble timeMs .seedDefault = .ok (Command.make opSeed w) ∧ w.toNat = timeMs % 4294967296) ∧
    ∀ other : Nat, other % 4294967296 = timeMs % 4294967296 →
      assemble other .seedDefault = assemble timeMs .seedDefault

/-! ### The datapath -/

/-- 40_seed.md R141: the seeding step on unbounded integers, reduced once or in two stages, and the rule's examples. -/
def Obligations.InitStepFormula : Prop :=
  (∀ (prev : Word) (i : Nat), 1 ≤ i → i ≤ 623 →
    (initStep prev i).toNat = (1812433253 * (prev ^^^ (prev >>> 30)).toNat + i) % 4294967296 ∧
    (initStep prev i).toNat = (1812433253 * (prev ^^^ (prev >>> 30)).toNat % 4294967296 + i) % 4294967296) ∧
  initStep 0x00000000#32 1 = 0x00000001#32 ∧ initStep 0x00000001#32 2 = 0x6c078967#32 ∧
  initStep 0xffffffff#32 1 = 0x4fe1da6d#32 ∧ initStep 0xc0000000#32 623 = 0x04169e9e#32

/-- 41_regenerate.md R171, R172: the twist bit by bit, the table, the top bit, and the rules' examples. -/
def Obligations.TwistWordBits : Prop :=
  (∀ a b c : Word,
    (∀ k, k < 32 → bitOf (twistY a b) k = if k = 31 then bitOf a 31 else bitOf b k) ∧
    twistWord a b c = c ^^^ (twistY a b >>> 1) ^^^ (if bitOf (twistY a b) 0 then 0x9908b0df#32 else 0x00000000#32) ∧
    bitOf (twistY a b) 0 = bitOf b 0 ∧ bitOf (twistY a b >>> 1) 31 = false ∧
    bitOf (twistWord a b c) 31 = (bitOf c 31 ^^ bitOf b 0)) ∧
  bitOf 0x9908b0df#32 31 = true ∧
  twistWord 0x80000000#32 0x00000001#32 0x00000000#32 = 0xd908b0df#32 ∧
  twistWord 0x7fffffff#32 0xfffffffe#32 0x12345678#32 = 0x2dcba987#32 ∧ twistWord 0#32 0#32 0#32 = 0#32

/-- 42_draw.md R202 (R200): the stages of the tempering for the rule's two inputs, and its further values. -/
def Obligations.TemperStageValues : Prop :=
  (temper1 0x9b0afa27#32 = 0x9b199b78#32 ∧ temper2 0x9b199b78#32 = 0x17158f78#32 ∧
    temper3 0x17158f78#32 = 0xd0918f78#32 ∧ temper4 0xd0918f78#32 = 0xd091bb5c#32 ∧ temper 0x9b0afa27#32 = 3499211612#32) ∧
  (temper1 0x00000001#32 = 0x00000001#32 ∧ temper2 0x00000001#32 = 0x00000081#32 ∧
    temper3 0x00000081#32 = 0x00400081#32 ∧ temper4 0x00400081#32 = 0x00400091#32 ∧ temper 0x00000001#32 = 0x00400091#32) ∧
  temper 0#32 = 0#32 ∧ temper 0x80000000#32 = 0x88102204#32 ∧ temper 0xffffffff#32 = 0x6fe01bf8#32 ∧
  temper 0x12345678#32 = 0x2b7e4a2d#32

/-- 41_regenerate.md R173, R174: the three ranges in the source's order and the single loop give the same REGEN. -/
def Obligations.RegenRangesEqualSingleLoop : Prop :=
  ∀ s : State, (regen s).mt = twistRanges s.mt ∧ (regen s).mt = twistTo s.mt 624 ∧ (regen s).idx = 0#10 ∧
    (regen s).seeded = s.seeded

/-- 41_regenerate.md R175: which version of each word every step of a regeneration reads. -/
def Obligations.RegenReadsListedVersions : Prop :=
  ∀ mt : StateVec,
    (∀ kk, kk ≤ 226 → readWord (twistAll mt) kk =
      twistWord (readWord mt kk) (readWord mt (kk + 1)) (readWord mt (kk + 397))) ∧
    (∀ kk, 227 ≤ kk → kk ≤ 622 → readWord (twistAll mt) kk =
      twistWord (readWord mt kk) (readWord mt (kk + 1)) (readWord (twistAll mt) (kk - 227))) ∧
    readWord (twistAll mt) 623 =
      twistWord (readWord mt 623) (readWord (twistAll mt) 0) (readWord (twistAll mt) 396)

/-! ### SEED -/

/-- 40_seed.md R140: SEED from every state: the whole vector, the cursor, the flag, the response. -/
def Obligations.SeedResult : Prop :=
  ∀ (arg : Word) (s : State), ∃ t, exec (.seed arg) s = .next t ∧
    readWord t.mt 0 = arg ∧
    (∀ i, 1 ≤ i → i ≤ 623 → readWord t.mt i = initStep (readWord t.mt (i - 1)) i) ∧
    t.idx = 624#10 ∧ t.seeded = true ∧ response t = some (.ok, 0#32)

/-- 40_seed.md R144: the state after a SEED depends on its argument alone, so every later command stream answers the same. -/
def Obligations.SeedForgetsTheState : Prop :=
  ∀ (arg : Word) (s s' t t' : State), exec (.seed arg) s = .next t → exec (.seed arg) s' = .next t' →
    arch t = arch t' ∧ response t = response t' ∧ ∀ cs, responses cs t = responses cs t'

/-- 20_memory.md R76, its sentence on SEED: two SEEDs with the same argument leave the same state as one (the hidden registers
too, by the model's choice of log 7). -/
def Obligations.SeedIsIdempotent : Prop :=
  ∀ (arg : Word) (s t u : State), exec (.seed arg) s = .next t → exec (.seed arg) t = .next u → u = t

/-- 40_seed.md R140, corner case: the seeded state is never all zero. -/
def Obligations.SeededVectorNotAllZero : Prop :=
  ∀ (arg : Word) (s t : State), exec (.seed arg) s = .next t → ∃ i, i < 624 ∧ readWord t.mt i ≠ 0#32

/-- SEED's frame (40_seed.md R140 with 44_sequencer.md R274, R275; that a whole command leaves the hidden registers as the
reference sequencer does is the model's choice, log 7): `y_r`, the model's own fields and the host's script are left alone;
the command is latched. -/
def Obligations.SeedFrame : Prop :=
  ∀ (arg : Word) (s t : State), exec (.seed arg) s = .next t →
    t.yR = s.yR ∧ t.wasReset = s.wasReset ∧ t.level = s.level ∧ t.host = s.host ∧ t.opR = opSeed ∧ t.argR = arg

/-! ### WORD and BOOL -/

/-- 42_draw.md R204, R205: WORD on a seeded block, with words left and exhausted, and on an unseeded one. -/
def Obligations.WordResult : Prop :=
  ∀ (x : Word) (s : State),
    (s.seeded = true → s.idx.toNat < 624 → ∃ t, exec (.word x) s = .next t ∧
      response t = some (.ok, temper (readWord s.mt s.idx.toNat)) ∧
      t.mt = s.mt ∧ t.idx.toNat = s.idx.toNat + 1 ∧ t.seeded = true) ∧
    (s.seeded = true → 624 ≤ s.idx.toNat → ∃ t, exec (.word x) s = .next t ∧
      response t = some (.ok, temper (readWord (twistAll s.mt) 0)) ∧
      t.mt = twistAll s.mt ∧ t.idx = 1#10 ∧ t.seeded = true) ∧
    (s.seeded = false → ∃ t, exec (.word x) s = .next t ∧ response t = some (.notSeeded, 0#32) ∧ arch t = arch s)

/-- 42_draw.md R204, R206: BOOL likewise; its data is 1 exactly when the word is at least 2^31, else 0. -/
def Obligations.BoolResult : Prop :=
  ∀ (x : Word) (s : State),
    (s.seeded = true → s.idx.toNat < 624 → ∃ t, exec (.bool x) s = .next t ∧
      response t = some (.ok, if 2147483648 ≤ (temper (readWord s.mt s.idx.toNat)).toNat then 1#32 else 0#32) ∧
      t.mt = s.mt ∧ t.idx.toNat = s.idx.toNat + 1 ∧ t.seeded = true) ∧
    (s.seeded = true → 624 ≤ s.idx.toNat → ∃ t, exec (.bool x) s = .next t ∧
      response t = some (.ok, if 2147483648 ≤ (temper (readWord (twistAll s.mt) 0)).toNat then 1#32 else 0#32) ∧
      t.mt = twistAll s.mt ∧ t.idx = 1#10 ∧ t.seeded = true) ∧
    (s.seeded = false → ∃ t, exec (.bool x) s = .next t ∧ response t = some (.notSeeded, 0#32) ∧ arch t = arch s)

/-- 30_encoding.md R108: for WORD and BOOL every value of the argument gives the same result. -/
def Obligations.DontCareArgumentBits : Prop :=
  ∀ (x x' : Word) (s t t' : State),
    (exec (.word x) s = .next t → exec (.word x') s = .next t' → arch t = arch t' ∧ response t = response t') ∧
    (exec (.bool x) s = .next t → exec (.bool x') s = .next t' → arch t = arch t' ∧ response t = response t')

/-- The frame of WORD and BOOL (42_draw.md R205, R206; the hidden registers by log 7): the flag, the chain register, the model's
own fields and the host's script are left alone;
without a regeneration every word of the vector and the loop counter too; unseeded, the cursor and `y_r` too. -/
def Obligations.WordAndBoolFrame : Prop :=
  ∀ (x : Word) (i : Instr) (s t : State), i = .word x ∨ i = .bool x → exec i s = .next t →
    (t.seeded = s.seeded ∧ t.prev = s.prev ∧ t.wasReset = s.wasReset ∧ t.level = s.level ∧ t.host = s.host ∧
      t.opR = opcodeOf i ∧ t.argR = x) ∧
    (s.seeded = false ∨ s.idx.toNat < 624 → t.cnt = s.cnt ∧ ∀ k, readWord t.mt k = readWord s.mt k) ∧
    (s.seeded = false → t.idx = s.idx ∧ t.yR = s.yR)

/-! ### BOUNDED -/

/-- 43_bounded.md R241: the argument check is on the signed value, comes first, and leaves the state alone. -/
def Obligations.BoundedArgumentCheck : Prop :=
  (∀ (arg : Word) (s : State), sint32 arg ≤ 1 → ∃ t, exec (.bounded arg) s = .next t ∧
    response t = some (.invalidArgument, 0#32) ∧ arch t = arch s) ∧
  (∀ (arg : Word) (s t : State), 1 < sint32 arg → exec (.bounded arg) s = .next t →
    ∀ d, response t ≠ some (.invalidArgument, d)) ∧
  sint32 0x80000000#32 = -2147483648 ∧ sint32 0xfffffffb#32 = -5 ∧ sint32 0x7fffffff#32 = 2147483647

/-- 43_bounded.md R240 and 60_exceptions.md R312: BOUNDED with a legal bound on an unseeded block. -/
def Obligations.BoundedUnseeded : Prop :=
  ∀ (arg : Word) (s : State), 1 < sint32 arg → s.seeded = false → ∃ t, exec (.bounded arg) s = .next t ∧
    response t = some (.notSeeded, 0#32) ∧ arch t = arch s

/-- 43_bounded.md R243 (90_conflicts.md C1): Case A for `n = 2^k`: one draw; the quotient plus 1, which is the top `k` bits of
`bits`, the top `k` bits of the word, plus 1, in `[1, n]`; and the rule's examples. -/
def Obligations.BoundedPowerOfTwoResult : Prop :=
  (∀ (k : Nat) (s : State), 1 ≤ k → k ≤ 30 → s.seeded = true →
    ∃ t r, exec (.bounded (BitVec.ofNat 32 (2 ^ k))) s = .next t ∧ response t = some (.ok, r) ∧
      r.toNat = 2 ^ k * bitsOf (drawnAt s 0) / 2147483648 + 1 ∧
      r.toNat = bitsOf (drawnAt s 0) / 2 ^ (31 - k) + 1 ∧ r.toNat = (drawnAt s 0).toNat / 2 ^ (32 - k) + 1 ∧
      1 ≤ r.toNat ∧ r.toNat ≤ 2 ^ k ∧ arch t = arch (draw s)) ∧
  caseA 2 (bitsOf 0x7fffffff#32) = 1 ∧ caseA 2 (bitsOf 0x80000000#32) = 2 ∧
  caseA 1024 (bitsOf 0xffffffff#32) = 1024 ∧ caseA (2 ^ 30) (bitsOf 0#32) = 1

/-- 43_bounded.md R244: Case B: rejected words are drawn and never returned; the first accepted word gives `val + 1`. -/
def Obligations.BoundedRejectionResult : Prop :=
  ∀ (arg : Word) (j : Nat) (s : State), 1 < sint32 arg → (¬∃ k, arg.toNat = 2 ^ k) → s.seeded = true →
    FirstAccepted arg.toNat j s →
    ∃ t r, exec (.bounded arg) s = .next t ∧ response t = some (.ok, r) ∧
      r.toNat = bitsOf (drawnAt s j) % arg.toNat + 1 ∧ arch t = arch (drawTimes (j + 1) s)

/-- The rejection loop ends, from every state and for every bound, within 19969 draws. The spec leaves this open
(43_bounded.md R248, R249): it is no rule of the spec but a consequence of the twist (41_regenerate.md R171 to R175), the draw
(42_draw.md R200, R204) and the two mappings (43_bounded.md R243 to R245). -/
def Obligations.BoundedAlwaysAnswers : Prop :=
  ∀ (arg : Word) (s : State), 1 < sint32 arg → s.seeded = true →
    ∃ t r j, exec (.bounded arg) s = .next t ∧ response t = some (.ok, r) ∧ 1 ≤ r.toNat ∧ (r.toNat : Int) ≤ sint32 arg ∧
      j ≤ 19968 ∧ arch t = arch (drawTimes (j + 1) s)

/-- 43_bounded.md R247: every OK response of BOUNDED is in `[1, n]`. -/
def Obligations.BoundedRangeLaw : Prop :=
  ∀ (arg : Word) (s t : State) (r : Word), exec (.bounded arg) s = .next t → response t = some (.ok, r) →
    1 ≤ r.toNat ∧ (r.toNat : Int) ≤ sint32 arg ∧ r.toNat ≤ 2147483647

/-- 43_bounded.md R242: the power-of-two test is true exactly on `2^1` to `2^30`, and the source's two tests agree. -/
def Obligations.PowerOfTwoTestsAgree : Prop :=
  ∀ n : Nat, 2 ≤ n → n ≤ 2147483647 →
    (isPow2 n = true ↔ ∃ k, 1 ≤ k ∧ k ≤ 30 ∧ n = 2 ^ k) ∧
    (isPow2 n = true ↔ BitVec.ofNat 32 n &&& (BitVec.ofNat 32 n - 1#32) = 0#32) ∧
    (isPow2 n = true ↔ BitVec.ofNat 32 n &&& -(BitVec.ofNat 32 n) = BitVec.ofNat 32 n)

/-- 43_bounded.md R245: the three forms of the accept test, and the rule's examples of the third. -/
def Obligations.AcceptTestForms : Prop :=
  (∀ n bits : Nat, 3 ≤ n → n ≤ 2147483647 → bits < 2147483648 →
    (0 ≤ (bits : Int) - (bits % n : Nat) + n - 1 ∧ (bits : Int) - (bits % n : Nat) + n - 1 < 4294967296) ∧
    (accepts n bits = true ↔ (bits : Int) - (bits % n : Nat) + ((n : Int) - 1) ≤ 2147483647) ∧
    (accepts n bits = true ↔ bitOf (BitVec.ofInt 32 ((bits : Int) - (bits % n : Nat) + (n : Int) - 1)) 31 = false) ∧
    (accepts n bits = true ↔ bits < n * (2147483648 / n))) ∧
  (∀ bits, bits < 2147483648 →
    (accepts 6 bits = true ↔ bits < 2147483646) ∧ (accepts 3 bits = true ↔ bits < 2147483646) ∧
    (accepts 2147483647 bits = true ↔ bits < 2147483647) ∧ (accepts 1073741825 bits = true ↔ bits < 1073741825))

/-- BOUNDED's frame (43_bounded.md R240; the hidden registers by log 7): the flag, the chain register, the model's own fields
and the host's script are left alone; when its
draws do not regenerate, every word of the vector and the loop counter too; on an error the cursor and `y_r` too. -/
def Obligations.BoundedFrame : Prop :=
  ∀ (arg : Word) (s t : State), exec (.bounded arg) s = .next t →
    (t.seeded = s.seeded ∧ t.prev = s.prev ∧ t.wasReset = s.wasReset ∧ t.level = s.level ∧ t.host = s.host ∧
      t.opR = opBounded ∧ t.argR = arg) ∧
    (sint32 arg ≤ 1 ∨ s.seeded = false →
      t.idx = s.idx ∧ t.yR = s.yR ∧ t.cnt = s.cnt ∧ ∀ k, readWord t.mt k = readWord s.mt k) ∧
    (1 < sint32 arg → s.seeded = true → (∃ k, arg.toNat = 2 ^ k) → s.idx.toNat < 624 →
      t.cnt = s.cnt ∧ ∀ k, readWord t.mt k = readWord s.mt k) ∧
    (∀ j, 1 < sint32 arg → s.seeded = true → (¬∃ k, arg.toNat = 2 ^ k) → FirstAccepted arg.toNat j s →
      s.idx.toNat + j < 624 → t.cnt = s.cnt ∧ ∀ k, readWord t.mt k = readWord s.mt k)

/-! ### Errors -/

/-- 30_encoding.md R105, 60_exceptions.md R313: a reserved opcode, whatever the argument and the state. -/
def Obligations.ReservedOpcodeAnswers : Prop :=
  ∀ (op : Opcode) (arg : Word) (s : State), op = 0b000#3 ∨ op = 0b101#3 ∨ op = 0b110#3 ∨ op = 0b111#3 →
    ∃ t, transact op arg s = .next t ∧ response t = some (.illegalOp, 0#32) ∧ arch t = arch s

/-- 60_exceptions.md R314 with R310, R315: which error a command reports, that it has no effect, and that no other command
reports one. -/
def Obligations.ErrorPriorityAndPrecision : Prop :=
  ∀ (op : Opcode) (arg : Word) (s : State), ∃ t, transact op arg s = .next t ∧
    if op = 0b000#3 ∨ op = 0b101#3 ∨ op = 0b110#3 ∨ op = 0b111#3 then
      response t = some (.illegalOp, 0#32) ∧ arch t = arch s
    else if op = opBounded ∧ sint32 arg ≤ 1 then response t = some (.invalidArgument, 0#32) ∧ arch t = arch s
    else if op ≠ opSeed ∧ s.seeded = false then response t = some (.notSeeded, 0#32) ∧ arch t = arch s
    else ∃ d, response t = some (.ok, d)

/-- 60_exceptions.md R326: inserting any number of error commands anywhere in a stream changes no OK response of the stream
(a batch of them at one place; at several places, one batch after another). -/
def Obligations.ErrorsChangeNoOkResponse : Prop :=
  ∀ (before errors after : List (Opcode × Word)) (s : State),
    (∀ r ∈ responses errors (afterStream before s), isOk r = false) →
    (responses (before ++ errors ++ after) s).filter isOk = (responses (before ++ after) s).filter isOk

/-- 20_memory.md R80, 42_draw.md R207: a command's response and the state it leaves are functions of the architectural state
and the command alone. -/
def Obligations.CommandsDependOnArchitecturalState : Prop :=
  ∀ (op : Opcode) (arg : Word) (s s' : State), arch s = arch s' →
    response (afterCommand op arg s) = response (afterCommand op arg s') ∧
    arch (afterCommand op arg s) = arch (afterCommand op arg s')

/-- 30_encoding.md R109, 44_sequencer.md R271: every accepted command ends with a response (for BOUNDED this is the end of
the rejection loop, which the spec leaves open: 43_bounded.md R249). -/
def Obligations.EveryCommandAnswers : Prop :=
  ∀ (op : Opcode) (arg : Word) (s : State), ∃ t st d, transact op arg s = .next t ∧ response t = some (st, d)

/-! ### The sequence of words -/

/-- 41_regenerate.md R180 and 40_seed.md R143: SEED leaves no word drawn; draw `k + 1` regenerates exactly when `k mod 624 = 0`
and gives the word R180 names. -/
def Obligations.RegenerationBoundary : Prop :=
  (∀ (seed : Word) (s t : State), exec (.seed seed) s = .next t → Drawn seed 0 t) ∧
  ∀ (seed : Word) (k : Nat) (s : State), Drawn seed k s →
    (exhausted s = true ↔ k % 624 = 0) ∧ drawnAt s 0 = wordOfDraw seed (k + 1) ∧ Drawn seed (k + 1) (draw s)

/-- 42_draw.md R207: the `k`-th word drawn since a SEED is a function of the seed and `k` alone, whichever commands drew the
words before it, and each command's result is a function of the words it draws and its argument. -/
def Obligations.CommandsDrawOneSequence : Prop :=
  ∀ (seed : Word) (k : Nat) (s : State), Drawn seed k s →
    (∀ x, ∃ t, exec (.word x) s = .next t ∧ response t = some (.ok, wordOfDraw seed (k + 1)) ∧ Drawn seed (k + 1) t) ∧
    (∀ x, ∃ t, exec (.bool x) s = .next t ∧
      response t = some (.ok, zext32 (bitOf (wordOfDraw seed (k + 1)) 31)) ∧ Drawn seed (k + 1) t) ∧
    (∀ arg, 1 < sint32 arg → (∃ e, arg.toNat = 2 ^ e) → ∃ t, exec (.bounded arg) s = .next t ∧
      response t = some (.ok, BitVec.ofNat 32 (caseA arg.toNat (bitsOf (wordOfDraw seed (k + 1))))) ∧
      Drawn seed (k + 1) t) ∧
    (∀ arg, 1 < sint32 arg → (¬∃ e, arg.toNat = 2 ^ e) → ∃ t j, exec (.bounded arg) s = .next t ∧
      (∀ i, i < j → accepts arg.toNat (bitsOf (wordOfDraw seed (k + 1 + i))) = false) ∧
      accepts arg.toNat (bitsOf (wordOfDraw seed (k + 1 + j))) = true ∧
      response t = some (.ok, BitVec.ofNat 32 (caseB arg.toNat (bitsOf (wordOfDraw seed (k + 1 + j))))) ∧
      Drawn seed (k + 1 + j) t) ∧
    (∀ op arg, isOk (response (afterCommand op arg s)) = false → Drawn seed k (afterCommand op arg s))

/-! ### The sequencer -/

/-- 44_sequencer.md R283: the sequencer, run edge by edge, reaches RESP with the response of the transaction-level rule,
whatever the host does on its other pins meanwhile, and returns to IDLE with that rule's architectural state. That it always
gets there is a theorem of the model (`BoundedAlwaysAnswers`), where the rule has "provided the rejection loop ends". -/
def Obligations.SequencerConforms : Prop :=
  ∀ (p : Pins) (s : State), s.wasReset = true → s.fsm = .idle → p.rst = false → p.cmdValid = true →
    ∃ t k, transact p.cmdOp p.cmdArg s = .next t ∧
      ∀ ps : List Pins, ps.length = k → (∀ q ∈ ps, q.rst = false) →
        ∃ u, edges (p :: ps) s = .next u ∧ u.fsm = .resp ∧ response u = response t ∧
          ∀ q : Pins, q.rst = false → q.rspReady = true →
            ∃ v, edge q u = .next v ∧ v.fsm = .idle ∧ arch v = arch t

/-- 44_sequencer.md R284: the reference sequencer's cycle counts, the cycles outside IDLE and RESP after the accepting edge.
At the end the machine is in the very state that the model's whole command gives, hidden registers included: that whole
commands leave the hidden registers as the reference sequencer does is the model's choice (log 7). -/
def Obligations.ReferenceCycleCounts : Prop :=
  ∀ (p : Pins) (s : State) (c : Nat), s.wasReset = true → s.fsm = .idle → p.rst = false → p.cmdValid = true →
    ((∃ e, commandError p.cmdOp p.cmdArg s.seeded = some e) ∧ c = 0 ∨
      p.cmdOp = opSeed ∧ c = 623 ∨
      s.seeded = true ∧ (p.cmdOp = opWord ∨ p.cmdOp = opBool ∨
        p.cmdOp = opBounded ∧ 1 < sint32 p.cmdArg ∧ ∃ k, p.cmdArg.toNat = 2 ^ k) ∧
        c = (if 624 ≤ s.idx.toNat then 627 else 2) ∨
      s.seeded = true ∧ p.cmdOp = opBounded ∧ 1 < sint32 p.cmdArg ∧ (¬∃ k, p.cmdArg.toNat = 2 ^ k) ∧
        ∃ j, FirstAccepted p.cmdArg.toNat j s ∧ c = 2 * (1 + j) + 625 * regensIn (j + 1) s) →
    ∀ ps : List Pins, ps.length ≤ c → (∀ q ∈ ps, q.rst = false) →
      ∃ t, edges (p :: ps) s = .next t ∧ t.fsm ≠ .idle ∧ (t.fsm = .resp ↔ ps.length = c) ∧
        (ps.length = c → transact p.cmdOp p.cmdArg s = .next t)

/-- 44_sequencer.md R274: the edge in IDLE, row by row in the order of the table. -/
def Obligations.IdleTransitions : Prop :=
  ∀ (p : Pins) (s : State), s.wasReset = true → s.fsm = .idle → p.rst = false →
    (p.cmdValid = false → edge p s = .next s) ∧
    (p.cmdValid = true → edge p s = .next (
      if p.cmdOp = 0b000#3 ∨ p.cmdOp = 0b101#3 ∨ p.cmdOp = 0b110#3 ∨ p.cmdOp = 0b111#3 then
        { s with opR := p.cmdOp, argR := p.cmdArg, stR := .illegalOp, dataR := 0#32, fsm := .resp }
      else if p.cmdOp = 0b100#3 ∧ sint32 p.cmdArg ≤ 1 then
        { s with opR := p.cmdOp, argR := p.cmdArg, stR := .invalidArgument, dataR := 0#32, fsm := .resp }
      else if (p.cmdOp = 0b010#3 ∨ p.cmdOp = 0b011#3 ∨ p.cmdOp = 0b100#3) ∧ s.seeded = false then
        { s with opR := p.cmdOp, argR := p.cmdArg, stR := .notSeeded, dataR := 0#32, fsm := .resp }
      else if p.cmdOp = 0b001#3 then
        { s with
          opR := p.cmdOp, argR := p.cmdArg, mt := writeWord s.mt 0 p.cmdArg, prev := p.cmdArg, cnt := 1#10, idx := 624#10
          seeded := false, fsm := .seed }
      else { s with opR := p.cmdOp, argR := p.cmdArg, fsm := .draw }))

/-- 44_sequencer.md R275: the edge in SEED. -/
def Obligations.SeedTransitions : Prop :=
  ∀ (p : Pins) (s : State), s.wasReset = true → s.fsm = .seed → p.rst = false → s.cnt.toNat ≤ 623 →
    edge p s = .next (
      if s.cnt.toNat = 623 then
        { s with
          mt := writeWord s.mt 623 (initStep s.prev 623), prev := initStep s.prev 623, seeded := true, stR := .ok
          dataR := 0#32, fsm := .resp }
      else
        { s with
          mt := writeWord s.mt s.cnt.toNat (initStep s.prev s.cnt.toNat), prev := initStep s.prev s.cnt.toNat
          cnt := s.cnt + 1#10 })

/-- 44_sequencer.md R276, R277: the edges in DRAW and TWIST. -/
def Obligations.DrawAndTwistTransitions : Prop :=
  ∀ (p : Pins) (s : State), s.wasReset = true → p.rst = false →
    (s.fsm = .draw → edge p s = .next (
      if 624 ≤ s.idx.toNat then { s with cnt := 0#10, fsm := .twist }
      else { s with yR := temper (readWord s.mt s.idx.toNat), idx := s.idx + 1#10, fsm := .post })) ∧
    (s.fsm = .twist → s.cnt.toNat < 623 → edge p s = .next { s with
      mt := writeWord s.mt s.cnt.toNat (twistWord (readWord s.mt s.cnt.toNat) (readWord s.mt (s.cnt.toNat + 1))
        (readWord s.mt ((s.cnt.toNat + 397) % 624)))
      cnt := s.cnt + 1#10 }) ∧
    (s.fsm = .twist → s.cnt.toNat = 623 → edge p s = .next { s with
      mt := writeWord s.mt 623 (twistWord (readWord s.mt 623) (readWord s.mt 0) (readWord s.mt 396))
      idx := 0#10
      fsm := .draw })

/-- 44_sequencer.md R278: the edge in POST, from every state of the invariant: the command is one of three, and its row. -/
def Obligations.PostTransitions : Prop :=
  ∀ (p : Pins) (s : State), Inv s → s.fsm = .post → p.rst = false →
    (s.opR = 0b010#3 ∧ edge p s = .next { s with stR := .ok, dataR := s.yR, fsm := .resp } ∨
      s.opR = 0b011#3 ∧ edge p s = .next { s with stR := .ok, dataR := zext32 (bitOf s.yR 31), fsm := .resp } ∨
      s.opR = 0b100#3 ∧ ∃ n : Nat, (n : Int) = sint32 s.argR ∧ 2 ≤ n ∧ edge p s = .next (
        if isPow2 n then
          { s with stR := .ok, dataR := BitVec.ofNat 32 (n * (s.yR >>> 1).toNat / 2147483648 + 1), fsm := .resp }
        else if accepts n (s.yR >>> 1).toNat then
          { s with stR := .ok, dataR := BitVec.ofNat 32 ((s.yR >>> 1).toNat % n + 1), fsm := .resp }
        else { s with fsm := .draw }))

/-- 44_sequencer.md R272: `cmd_ready` is 1 exactly in IDLE; outside IDLE the command port has no effect; at an edge with
`rst = 1` a command is not accepted. -/
def Obligations.BusyIgnoresCommandPort : Prop :=
  ∀ (p q : Pins) (s : State), (cmdReady s = true ↔ s.fsm = .idle) ∧
    (s.fsm ≠ .idle → p.rst = q.rst → p.rspReady = q.rspReady → edge p s = edge q s) ∧
    (p.rst = true → edge p s = .next (resetEdge s) ∧ accepting p s = false)

/-- 44_sequencer.md R279, R273: in RESP the response is held until it is taken, and taking it only moves to IDLE. -/
def Obligations.ResponseHeldUntilTaken : Prop :=
  ∀ (p : Pins) (s : State), s.wasReset = true → s.fsm = .resp → p.rst = false →
    (p.rspReady = false → edge p s = .next s) ∧ (p.rspReady = true → edge p s = .next { s with fsm := .idle })

/-- 44_sequencer.md R280: the cursor is written by exactly four events, and the rule's comparator. -/
def Obligations.CursorWriters : Prop :=
  (∀ i : Idx, 624 ≤ i.toNat ↔ 39 ≤ (i.extractLsb' 4 6).toNat) ∧
  ∀ (p : Pins) (s t : State), edge p s = .next t →
    t.idx =
      if p.rst then 624#10
      else match s.fsm with
        | .idle => if p.cmdValid ∧ p.cmdOp = opSeed then 624#10 else s.idx
        | .draw => if s.idx.toNat < 624 then s.idx + 1#10 else s.idx
        | .twist => if s.cnt.toNat = 623 then 0#10 else s.idx
        | _ => s.idx

/-- 10_state.md R33, R40, 44_sequencer.md R287: the flag is written by SEED's acceptance, SEED's completion, reset, and the
recovery of an unused `fsm`, and by nothing else. -/
def Obligations.SeededFlagWriters : Prop :=
  ∀ (p : Pins) (s t : State), edge p s = .next t →
    t.seeded =
      if p.rst then false
      else match s.fsm with
        | .idle => if p.cmdValid ∧ p.cmdOp = opSeed then false else s.seeded
        | .seed => if s.cnt.toNat = 623 then true else s.seeded
        | .unused6 => false
        | .unused7 => false
        | _ => s.seeded

/-- 10_state.md R35, 20_memory.md R72, R75: an edge writes at most one word of the vector: word 0 when it accepts a SEED, word
`cnt` in SEED and TWIST; every other word stays. -/
def Obligations.VectorWriters : Prop :=
  ∀ (p : Pins) (s t : State), edge p s = .next t → ∀ i, i < 624 →
    ¬(p.rst = false ∧ (s.fsm = .idle ∧ p.cmdValid = true ∧ p.cmdOp = opSeed ∧ i = 0 ∨
      (s.fsm = .seed ∨ s.fsm = .twist) ∧ i = s.cnt.toNat)) →
    readWord t.mt i = readWord s.mt i

/-- 44_sequencer.md R287: an edge from an unused encoding of `fsm` goes to IDLE and clears the flag, and no edge enters one. -/
def Obligations.UnusedEncodingRecovers : Prop :=
  (∀ (p : Pins) (s : State), s.wasReset = true → p.rst = false → s.fsm = .unused6 ∨ s.fsm = .unused7 →
    ∃ t, edge p s = .next t ∧ t.fsm = .idle ∧ t.seeded = false) ∧
  (∀ (p : Pins) (s t : State), edge p s = .next t → t.fsm ≠ .unused6 ∧ t.fsm ≠ .unused7)

/-! ### Reset -/

/-- 10_state.md R44, 70_reset_and_hazards.md R353: the values the spec gives for reset. -/
def Obligations.ResetStateValues : Prop :=
  State.reset.idx = 624#10 ∧ State.reset.seeded = false ∧ State.reset.fsm = .idle ∧
  cmdReady State.reset = true ∧ rspValid State.reset = false ∧ seededO State.reset = 0#1 ∧ idxO State.reset = 624#10

/-- 70_reset_and_hazards.md R350: an edge with `rst = 1`, from every state and whatever the other pins. -/
def Obligations.ResetEdgeEffect : Prop :=
  ∀ (p : Pins) (s : State), p.rst = true → ∃ t, edge p s = .next t ∧
    t.fsm = .idle ∧ t.seeded = false ∧ t.idx = 624#10 ∧ t.mt = s.mt ∧ t.cnt = s.cnt ∧ t.prev = s.prev ∧ t.opR = s.opR ∧
    t.argR = s.argR ∧ t.yR = s.yR ∧ t.stR = s.stR ∧ t.dataR = s.dataR ∧ t.level = s.level ∧ t.host = s.host

/-- 70_reset_and_hazards.md R351: a reset during a command: no response, the flag down, the vector as the command had written
it; until the next SEED no command ends OK and every draw command is NOT_SEEDED; the next SEED replaces the vector whole. -/
def Obligations.ResetAbortsCommand : Prop :=
  ∀ (p : Pins) (s t : State), p.rst = true → s.fsm ≠ .idle → edge p s = .next t →
    response t = none ∧ t.seeded = false ∧ t.mt = s.mt ∧
    (∀ cs, (∀ c ∈ cs, c.1 ≠ opSeed) →
      (∀ r ∈ responses cs t, isOk r = false) ∧
      (∀ x, response (afterCommand opWord x (afterStream cs t)) = some (.notSeeded, 0#32)) ∧
      (∀ x, response (afterCommand opBool x (afterStream cs t)) = some (.notSeeded, 0#32)) ∧
      (∀ n, 1 < sint32 n → response (afterCommand opBounded n (afterStream cs t)) = some (.notSeeded, 0#32)) ∧
      (∀ a u, exec (.seed a) (afterStream cs t) = .next u → u.mt = batch a 0))

/-- 70_reset_and_hazards.md R355 as 93_implementation_defined.md treats it (log 5): before the first reset every step without
`rst` is refused, and a step with it is a reset. -/
def Obligations.RefusedBeforeFirstReset : Prop :=
  ∀ s : State, s.wasReset = false →
    ((nextPins s).rst = false → step s = .refused .beforeFirstReset) ∧
    ((nextPins s).rst = true → step s = .next (resetEdge (popPins s)))

/-! ### The step -/

/-- A step that accepts a command at the transaction level runs the whole command the ports hold, of any opcode, on the state
with that edge's pins taken off the host's script: the decoded command, or for a reserved opcode the ILLEGAL_OP response of
30_encoding.md R105. `withFetchWord` makes the next step such a step (logs 1, 2, 8). -/
def Obligations.StepRunsDecodedCommand : Prop :=
  (∀ s : State, s.level = .transaction → accepting (nextPins s) s = true →
    step s = transact (nextPins s).cmdOp (nextPins s).cmdArg (popPins s) ∧
    (∀ i, decodePorts (nextPins s).cmdOp (nextPins s).cmdArg = .ok i → step s = exec i (popPins s)) ∧
    (∀ op, decodePorts (nextPins s).cmdOp (nextPins s).cmdArg = .error (.illegalOp op) →
      ∃ t, step s = .next t ∧ response t = some (.illegalOp, 0#32) ∧ arch t = arch s ∧ t.host = s.host.tail)) ∧
  (∀ (s : State) (nbits w : Nat) (i : Instr), decodeTableWord nbits w = some i →
    step (s.withFetchWord nbits w) = exec i { s with fsm := .idle, wasReset := true, level := .transaction })

/-- Every other step is one edge of the sequencer with the host's next pins (log 1). -/
def Obligations.StepIsOneEdgeOtherwise : Prop :=
  ∀ s : State, s.level = .cycle ∨ accepting (nextPins s) s = false → step s = edge (nextPins s) (popPins s)

/-- The invariants hold after reset. -/
def Obligations.InvariantsHoldAtReset : Prop := Inv State.reset ∧ Content State.reset

/-- Every step keeps the machine's invariant (10_state.md R32, R45; 44_sequencer.md R274 to R279, R287). -/
def Obligations.StepKeepsInvariant : Prop := ∀ s t : State, Inv s → step s = .next t → Inv t

/-- From a state of the invariant no step faults or is refused (60_exceptions.md R315, R325; 44_sequencer.md R278: `op_r` is
never another opcode in POST; 20_memory.md R71: no rule accesses a word that does not exist). -/
def Obligations.StepNeverStopsFromInvariant : Prop := ∀ s : State, Inv s → ∃ t, step s = .next t

/-- Every step keeps the content invariant: a seeded block always holds a vector of its seed's sequence (10_state.md R45). -/
def Obligations.StepKeepsVectorGenuine : Prop := ∀ s t : State, Inv s → Content s → step s = .next t → Content t

/-- What the spec leaves unspecified after reset is never observed: states alike but for it step to states alike, with the
same outputs (10_state.md R43, R44). -/
def Obligations.ResetContentsUnobservable : Prop :=
  ∀ s t : State, Inv s → Inv t → Alike s t →
    cmdReady s = cmdReady t ∧ rspValid s = rspValid t ∧ response s = response t ∧ seededO s = seededO t ∧ idxO s = idxO t ∧
    ∀ s', step s = .next s' → ∃ t', step t = .next t' ∧ Alike s' t'
end

