-- ==== Sys2Proof/Laws/State.lean ====
section
/-!
SUPPORT. One lemma per field of the state and per update of it, so that no proof unfolds a record update.
-/

namespace Sys2Proof.Machine

@[simp] theorem latch_mt (op : Opcode) (arg : Word) (s : State) : (latch op arg s).mt = s.mt := rfl
@[simp] theorem latch_idx (op : Opcode) (arg : Word) (s : State) : (latch op arg s).idx = s.idx := rfl
@[simp] theorem latch_seeded (op : Opcode) (arg : Word) (s : State) : (latch op arg s).seeded = s.seeded := rfl
@[simp] theorem latch_fsm (op : Opcode) (arg : Word) (s : State) : (latch op arg s).fsm = s.fsm := rfl
@[simp] theorem latch_cnt (op : Opcode) (arg : Word) (s : State) : (latch op arg s).cnt = s.cnt := rfl
@[simp] theorem latch_prev (op : Opcode) (arg : Word) (s : State) : (latch op arg s).prev = s.prev := rfl
@[simp] theorem latch_opR (op : Opcode) (arg : Word) (s : State) : (latch op arg s).opR = op := rfl
@[simp] theorem latch_argR (op : Opcode) (arg : Word) (s : State) : (latch op arg s).argR = arg := rfl
@[simp] theorem latch_yR (op : Opcode) (arg : Word) (s : State) : (latch op arg s).yR = s.yR := rfl
@[simp] theorem latch_stR (op : Opcode) (arg : Word) (s : State) : (latch op arg s).stR = s.stR := rfl
@[simp] theorem latch_dataR (op : Opcode) (arg : Word) (s : State) : (latch op arg s).dataR = s.dataR := rfl
@[simp] theorem latch_wasReset (op : Opcode) (arg : Word) (s : State) : (latch op arg s).wasReset = s.wasReset := rfl
@[simp] theorem latch_level (op : Opcode) (arg : Word) (s : State) : (latch op arg s).level = s.level := rfl
@[simp] theorem latch_host (op : Opcode) (arg : Word) (s : State) : (latch op arg s).host = s.host := rfl

@[simp] theorem respond_mt (st : Status) (data : Word) (s : State) : (respond st data s).mt = s.mt := rfl
@[simp] theorem respond_idx (st : Status) (data : Word) (s : State) : (respond st data s).idx = s.idx := rfl
@[simp] theorem respond_seeded (st : Status) (data : Word) (s : State) : (respond st data s).seeded = s.seeded := rfl
@[simp] theorem respond_fsm (st : Status) (data : Word) (s : State) : (respond st data s).fsm = .resp := rfl
@[simp] theorem respond_cnt (st : Status) (data : Word) (s : State) : (respond st data s).cnt = s.cnt := rfl
@[simp] theorem respond_prev (st : Status) (data : Word) (s : State) : (respond st data s).prev = s.prev := rfl
@[simp] theorem respond_opR (st : Status) (data : Word) (s : State) : (respond st data s).opR = s.opR := rfl
@[simp] theorem respond_argR (st : Status) (data : Word) (s : State) : (respond st data s).argR = s.argR := rfl
@[simp] theorem respond_yR (st : Status) (data : Word) (s : State) : (respond st data s).yR = s.yR := rfl
@[simp] theorem respond_stR (st : Status) (data : Word) (s : State) : (respond st data s).stR = st := rfl
@[simp] theorem respond_dataR (st : Status) (data : Word) (s : State) : (respond st data s).dataR = data := rfl
@[simp] theorem respond_wasReset (st : Status) (data : Word) (s : State) : (respond st data s).wasReset = s.wasReset := rfl
@[simp] theorem respond_level (st : Status) (data : Word) (s : State) : (respond st data s).level = s.level := rfl
@[simp] theorem respond_host (st : Status) (data : Word) (s : State) : (respond st data s).host = s.host := rfl

@[simp] theorem raise_mt (e : Status) (s : State) : (raise e s).mt = s.mt := rfl
@[simp] theorem raise_idx (e : Status) (s : State) : (raise e s).idx = s.idx := rfl
@[simp] theorem raise_seeded (e : Status) (s : State) : (raise e s).seeded = s.seeded := rfl
@[simp] theorem raise_fsm (e : Status) (s : State) : (raise e s).fsm = .resp := rfl
@[simp] theorem raise_cnt (e : Status) (s : State) : (raise e s).cnt = s.cnt := rfl
@[simp] theorem raise_prev (e : Status) (s : State) : (raise e s).prev = s.prev := rfl
@[simp] theorem raise_opR (e : Status) (s : State) : (raise e s).opR = s.opR := rfl
@[simp] theorem raise_argR (e : Status) (s : State) : (raise e s).argR = s.argR := rfl
@[simp] theorem raise_yR (e : Status) (s : State) : (raise e s).yR = s.yR := rfl
@[simp] theorem raise_stR (e : Status) (s : State) : (raise e s).stR = e := rfl
@[simp] theorem raise_dataR (e : Status) (s : State) : (raise e s).dataR = 0#32 := rfl
@[simp] theorem raise_wasReset (e : Status) (s : State) : (raise e s).wasReset = s.wasReset := rfl
@[simp] theorem raise_level (e : Status) (s : State) : (raise e s).level = s.level := rfl
@[simp] theorem raise_host (e : Status) (s : State) : (raise e s).host = s.host := rfl

@[simp] theorem resetEdge_mt (s : State) : (resetEdge s).mt = s.mt := rfl
@[simp] theorem resetEdge_idx (s : State) : (resetEdge s).idx = 624#10 := rfl
@[simp] theorem resetEdge_seeded (s : State) : (resetEdge s).seeded = false := rfl
@[simp] theorem resetEdge_fsm (s : State) : (resetEdge s).fsm = .idle := rfl
@[simp] theorem resetEdge_cnt (s : State) : (resetEdge s).cnt = s.cnt := rfl
@[simp] theorem resetEdge_prev (s : State) : (resetEdge s).prev = s.prev := rfl
@[simp] theorem resetEdge_opR (s : State) : (resetEdge s).opR = s.opR := rfl
@[simp] theorem resetEdge_argR (s : State) : (resetEdge s).argR = s.argR := rfl
@[simp] theorem resetEdge_yR (s : State) : (resetEdge s).yR = s.yR := rfl
@[simp] theorem resetEdge_stR (s : State) : (resetEdge s).stR = s.stR := rfl
@[simp] theorem resetEdge_dataR (s : State) : (resetEdge s).dataR = s.dataR := rfl
@[simp] theorem resetEdge_wasReset (s : State) : (resetEdge s).wasReset = true := rfl
@[simp] theorem resetEdge_level (s : State) : (resetEdge s).level = s.level := rfl
@[simp] theorem resetEdge_host (s : State) : (resetEdge s).host = s.host := rfl

@[simp] theorem popPins_mt (s : State) : (popPins s).mt = s.mt := rfl
@[simp] theorem popPins_idx (s : State) : (popPins s).idx = s.idx := rfl
@[simp] theorem popPins_seeded (s : State) : (popPins s).seeded = s.seeded := rfl
@[simp] theorem popPins_fsm (s : State) : (popPins s).fsm = s.fsm := rfl
@[simp] theorem popPins_cnt (s : State) : (popPins s).cnt = s.cnt := rfl
@[simp] theorem popPins_prev (s : State) : (popPins s).prev = s.prev := rfl
@[simp] theorem popPins_opR (s : State) : (popPins s).opR = s.opR := rfl
@[simp] theorem popPins_argR (s : State) : (popPins s).argR = s.argR := rfl
@[simp] theorem popPins_yR (s : State) : (popPins s).yR = s.yR := rfl
@[simp] theorem popPins_stR (s : State) : (popPins s).stR = s.stR := rfl
@[simp] theorem popPins_dataR (s : State) : (popPins s).dataR = s.dataR := rfl
@[simp] theorem popPins_wasReset (s : State) : (popPins s).wasReset = s.wasReset := rfl
@[simp] theorem popPins_level (s : State) : (popPins s).level = s.level := rfl
@[simp] theorem popPins_host (s : State) : (popPins s).host = s.host.tail := rfl

@[simp] theorem present_mt (cw : Command) (s : State) : (present cw s).mt = s.mt := rfl
@[simp] theorem present_idx (cw : Command) (s : State) : (present cw s).idx = s.idx := rfl
@[simp] theorem present_seeded (cw : Command) (s : State) : (present cw s).seeded = s.seeded := rfl
@[simp] theorem present_fsm (cw : Command) (s : State) : (present cw s).fsm = .idle := rfl
@[simp] theorem present_cnt (cw : Command) (s : State) : (present cw s).cnt = s.cnt := rfl
@[simp] theorem present_prev (cw : Command) (s : State) : (present cw s).prev = s.prev := rfl
@[simp] theorem present_opR (cw : Command) (s : State) : (present cw s).opR = s.opR := rfl
@[simp] theorem present_argR (cw : Command) (s : State) : (present cw s).argR = s.argR := rfl
@[simp] theorem present_yR (cw : Command) (s : State) : (present cw s).yR = s.yR := rfl
@[simp] theorem present_stR (cw : Command) (s : State) : (present cw s).stR = s.stR := rfl
@[simp] theorem present_dataR (cw : Command) (s : State) : (present cw s).dataR = s.dataR := rfl
@[simp] theorem present_wasReset (cw : Command) (s : State) : (present cw s).wasReset = true := rfl
@[simp] theorem present_level (cw : Command) (s : State) : (present cw s).level = .transaction := rfl
@[simp] theorem present_host (cw : Command) (s : State) : (present cw s).host = offerPins (Command.op cw) (Command.arg cw) :: s.host := rfl

@[simp] theorem regen_mt (s : State) : (regen s).mt = twistAll s.mt := rfl
@[simp] theorem regen_idx (s : State) : (regen s).idx = 0#10 := rfl
@[simp] theorem regen_seeded (s : State) : (regen s).seeded = s.seeded := rfl
@[simp] theorem regen_fsm (s : State) : (regen s).fsm = s.fsm := rfl
@[simp] theorem regen_cnt (s : State) : (regen s).cnt = 623#10 := rfl
@[simp] theorem regen_prev (s : State) : (regen s).prev = s.prev := rfl
@[simp] theorem regen_opR (s : State) : (regen s).opR = s.opR := rfl
@[simp] theorem regen_argR (s : State) : (regen s).argR = s.argR := rfl
@[simp] theorem regen_yR (s : State) : (regen s).yR = s.yR := rfl
@[simp] theorem regen_stR (s : State) : (regen s).stR = s.stR := rfl
@[simp] theorem regen_dataR (s : State) : (regen s).dataR = s.dataR := rfl
@[simp] theorem regen_wasReset (s : State) : (regen s).wasReset = s.wasReset := rfl
@[simp] theorem regen_level (s : State) : (regen s).level = s.level := rfl
@[simp] theorem regen_host (s : State) : (regen s).host = s.host := rfl

@[simp] theorem takeWord_mt (s : State) : (takeWord s).mt = s.mt := rfl
@[simp] theorem takeWord_idx (s : State) : (takeWord s).idx = s.idx + 1#10 := rfl
@[simp] theorem takeWord_seeded (s : State) : (takeWord s).seeded = s.seeded := rfl
@[simp] theorem takeWord_fsm (s : State) : (takeWord s).fsm = s.fsm := rfl
@[simp] theorem takeWord_cnt (s : State) : (takeWord s).cnt = s.cnt := rfl
@[simp] theorem takeWord_prev (s : State) : (takeWord s).prev = s.prev := rfl
@[simp] theorem takeWord_opR (s : State) : (takeWord s).opR = s.opR := rfl
@[simp] theorem takeWord_argR (s : State) : (takeWord s).argR = s.argR := rfl
@[simp] theorem takeWord_yR (s : State) : (takeWord s).yR = temper (readWord s.mt s.idx.toNat) := rfl
@[simp] theorem takeWord_stR (s : State) : (takeWord s).stR = s.stR := rfl
@[simp] theorem takeWord_dataR (s : State) : (takeWord s).dataR = s.dataR := rfl
@[simp] theorem takeWord_wasReset (s : State) : (takeWord s).wasReset = s.wasReset := rfl
@[simp] theorem takeWord_level (s : State) : (takeWord s).level = s.level := rfl
@[simp] theorem takeWord_host (s : State) : (takeWord s).host = s.host := rfl

@[simp] theorem upsetEdge_mt (s : State) : (upsetEdge s).mt = s.mt := rfl
@[simp] theorem upsetEdge_idx (s : State) : (upsetEdge s).idx = s.idx := rfl
@[simp] theorem upsetEdge_seeded (s : State) : (upsetEdge s).seeded = false := rfl
@[simp] theorem upsetEdge_fsm (s : State) : (upsetEdge s).fsm = .idle := rfl
@[simp] theorem upsetEdge_cnt (s : State) : (upsetEdge s).cnt = s.cnt := rfl
@[simp] theorem upsetEdge_prev (s : State) : (upsetEdge s).prev = s.prev := rfl
@[simp] theorem upsetEdge_opR (s : State) : (upsetEdge s).opR = s.opR := rfl
@[simp] theorem upsetEdge_argR (s : State) : (upsetEdge s).argR = s.argR := rfl
@[simp] theorem upsetEdge_yR (s : State) : (upsetEdge s).yR = s.yR := rfl
@[simp] theorem upsetEdge_stR (s : State) : (upsetEdge s).stR = s.stR := rfl
@[simp] theorem upsetEdge_dataR (s : State) : (upsetEdge s).dataR = s.dataR := rfl
@[simp] theorem upsetEdge_wasReset (s : State) : (upsetEdge s).wasReset = s.wasReset := rfl
@[simp] theorem upsetEdge_level (s : State) : (upsetEdge s).level = s.level := rfl
@[simp] theorem upsetEdge_host (s : State) : (upsetEdge s).host = s.host := rfl

end Sys2Proof.Machine
end

