-- ==== Sys2Proof/Laws/Ops.lean ====
section
/-!
SUPPORT. The laws of reading and writing the state vector, and what the checks of Flags.lean answer.
-/

namespace Sys2Proof.Machine

/-- A word read is the vector's element at that index. -/
theorem readWord_lt (mt : StateVec) {i : Nat} (h : i < 624) : readWord mt i = mt[i] := by
  simp only [readWord, Fin.ofNat, Nat.mod_eq_of_lt h]
  rfl

/-- Reading is mod N (41_regenerate.md R174). -/
theorem readWord_mod (mt : StateVec) (i : Nat) : readWord mt (i % 624) = readWord mt i := by
  simp [readWord, Fin.ofNat]

/-- Read after write to the same word. -/
theorem readWord_writeWord_same (mt : StateVec) (i : Nat) (v : Word) : readWord (writeWord mt i v) i = v := by
  simp [readWord, writeWord]

/-- A write leaves every other word alone. -/
theorem readWord_writeWord_other (mt : StateVec) {i j : Nat} (v : Word) (h : i % 624 ≠ j % 624) :
    readWord (writeWord mt i v) j = readWord mt j := by
  simp [readWord, writeWord, Fin.ofNat, h]

/-- Read after write, both indices in range. -/
theorem readWord_writeWord (mt : StateVec) {i j : Nat} (v : Word) (hi : i < 624) (hj : j < 624) :
    readWord (writeWord mt i v) j = if i = j then v else readWord mt j := by
  split
  · next h => subst h; exact readWord_writeWord_same mt i v
  · next h => exact readWord_writeWord_other mt v (by omega)

/-- Two vectors with the same words are the same. -/
theorem stateVec_ext {a b : StateVec} (h : ∀ i, i < 624 → readWord a i = readWord b i) : a = b := by
  apply Vector.ext
  intro i hi
  have := h i hi
  rwa [readWord_lt _ hi, readWord_lt _ hi] at this

end Sys2Proof.Machine
end

