-- ==== Sys2Proof/Laws/Vectors.lean ====
section
/-!
SUPPORT. What the two loops over the state vector do, said once per loop: the seeding chain (40_seed.md rules R140, R142) and
the twist (41_regenerate.md rules R174, R175). Each step writes only its own word.
-/

namespace Sys2Proof.Machine

/-- The chain's steps leave the words above them alone. -/
theorem readWord_seedTo_above (seed : Word) (mt : StateVec) (k : Nat) {i : Nat} (hk : k < i) (hi : i < 624) :
    readWord (seedTo seed mt k) i = readWord mt i := by
  induction k with
  | zero => simp only [seedTo]; rw [readWord_writeWord _ _ (by omega) hi, if_neg (by omega)]
  | succ k ih => simp only [seedTo]; rw [readWord_writeWord _ _ (by omega) hi, if_neg (by omega), ih (by omega)]

/-- A word of the chain, once written, stays. -/
theorem readWord_seedTo_stays (seed : Word) (mt : StateVec) (k d : Nat) {i : Nat} (hi : i ≤ k) (hk : k + d < 624) :
    readWord (seedTo seed mt (k + d)) i = readWord (seedTo seed mt k) i := by
  induction d with
  | zero => rfl
  | succ d ih =>
    rw [← Nat.add_assoc]
    simp only [seedTo]
    rw [readWord_writeWord _ _ (by omega) (by omega), if_neg (by omega), ih (by omega)]

/-- The chain's first word is the seed. -/
theorem readWord_seedTo_zero (seed : Word) (mt : StateVec) {k : Nat} (hk : k < 624) :
    readWord (seedTo seed mt k) 0 = seed := by
  have h := readWord_seedTo_stays seed mt 0 k (Nat.le_refl 0) (by omega)
  rw [Nat.zero_add] at h
  rw [h]
  simp only [seedTo]
  exact readWord_writeWord_same mt 0 seed

/-- Each further word of the chain is the step of the word before it. -/
theorem readWord_seedTo_succ (seed : Word) (mt : StateVec) {k i : Nat} (hi : i + 1 ≤ k) (hk : k < 624) :
    readWord (seedTo seed mt k) (i + 1) = initStep (readWord (seedTo seed mt k) i) (i + 1) := by
  obtain ⟨d, rfl⟩ := Nat.exists_eq_add_of_le hi
  rw [readWord_seedTo_stays seed mt (i + 1) d (Nat.le_refl _) hk, readWord_seedTo_stays seed mt (i + 1) d (by omega) hk]
  simp only [seedTo]
  rw [readWord_writeWord_same, readWord_writeWord _ _ (by omega) (by omega), if_neg (by omega)]

/-- The words written by the chain do not depend on what the vector held (40_seed.md R144). -/
theorem readWord_seedTo_base (seed : Word) (a b : StateVec) {k i : Nat} (hi : i ≤ k) (hk : k < 624) :
    readWord (seedTo seed a k) i = readWord (seedTo seed b k) i := by
  induction i with
  | zero => rw [readWord_seedTo_zero _ _ hk, readWord_seedTo_zero _ _ hk]
  | succ i ih => rw [readWord_seedTo_succ _ _ hi hk, readWord_seedTo_succ _ _ hi hk, ih (by omega)]

/-- The chain is its 623 steps. (Cite this lemma: `rw [seedVec]` runs into the loop's literal bound.) -/
theorem seedVec_eq (seed : Word) (mt : StateVec) : seedVec seed mt = seedTo seed mt 623 := by
  unfold seedVec
  with_reducible rfl

/-- The whole chain does not depend on what the vector held (40_seed.md R144). -/
theorem seedVec_base (seed : Word) (a b : StateVec) : seedVec seed a = seedVec seed b := by
  apply stateVec_ext
  intro i hi
  rw [seedVec_eq, seedVec_eq]
  exact readWord_seedTo_base seed a b (by omega) (by omega)

/-- A regeneration is its 624 steps. (Cite this lemma: `rw [twistAll]` runs into the loop's literal bound.) -/
theorem twistAll_eq (mt : StateVec) : twistAll mt = twistTo mt 624 := by
  unfold twistAll
  with_reducible rfl

/-- The twist's steps leave the words at and above them alone. -/
theorem readWord_twistTo_above (mt : StateVec) (k : Nat) {i : Nat} (hk : k ≤ i) (hi : i < 624) :
    readWord (twistTo mt k) i = readWord mt i := by
  induction k with
  | zero => rfl
  | succ k ih =>
    simp only [twistTo, twistStep]
    rw [readWord_writeWord _ _ (by omega) hi, if_neg (by omega), ih (by omega)]

/-- A word of the twist, once written, stays. -/
theorem readWord_twistTo_stays (mt : StateVec) (k d : Nat) {i : Nat} (hi : i < k) (hk : k + d ≤ 624) :
    readWord (twistTo mt (k + d)) i = readWord (twistTo mt k) i := by
  induction d with
  | zero => rfl
  | succ d ih =>
    rw [← Nat.add_assoc]
    simp only [twistTo, twistStep]
    rw [readWord_writeWord _ _ (by omega) (by omega), if_neg (by omega), ih (by omega)]

/-- The word step `i` writes, from what the steps before it left. -/
theorem readWord_twistTo_written (mt : StateVec) {k i : Nat} (hi : i < k) (hk : k ≤ 624) :
    readWord (twistTo mt k) i =
      twistWord (readWord mt i) (readWord (twistTo mt i) (i + 1)) (readWord (twistTo mt i) (i + 397)) := by
  obtain ⟨d, rfl⟩ := Nat.exists_eq_add_of_le (Nat.succ_le_of_lt hi)
  rw [readWord_twistTo_stays mt (i + 1) d (Nat.lt_succ_self i) hk]
  simp only [twistTo, twistStep]
  rw [readWord_writeWord_same, readWord_twistTo_above mt i (Nat.le_refl i) (by omega)]

/-- The vector after a whole regeneration, read at a word written by its first `k` steps. -/
theorem readWord_twistAll (mt : StateVec) {k i : Nat} (hi : i < k) (hk : k ≤ 624) :
    readWord (twistAll mt) i = readWord (twistTo mt k) i := by
  have h := readWord_twistTo_stays mt k (624 - k) hi (by omega)
  rw [Nat.add_sub_cancel' hk] at h
  rw [twistAll_eq]
  exact h

end Sys2Proof.Machine
end

