-- ==== Sys2Proof/Laws/Stream.lean ====
section
/-!
SUPPORT. The stream of raw words a state vector gives, batch after batch, its linear recurrence over bits, and the fact that
no 19969 consecutive words of it all have bit 31 of the tempered word set. So the rejection loop of BOUNDED ends from every
state (43_bounded.md rule R249 leaves its end open; here it is a theorem about the twist).
-/

namespace Sys2Proof.Machine

/-- The vector after `g` regenerations. -/
def regenTimes (mt : StateVec) : Nat → StateVec
  | 0 => mt
  | g + 1 => twistAll (regenTimes mt g)

/-- Raw word number `i` of the stream that starts at word 0 of the vector. -/
def rawStream (mt : StateVec) (i : Nat) : Word := readWord (regenTimes mt (i / 624)) (i % 624)

theorem rawStream_lt (mt : StateVec) {i : Nat} (h : i < 624) : rawStream mt i = readWord mt i := by
  rw [rawStream, Nat.div_eq_of_lt h, Nat.mod_eq_of_lt h]; rfl

theorem rawStream_batch (mt : StateVec) (q r : Nat) (h : r < 624) :
    rawStream mt (624 * q + r) = readWord (regenTimes mt q) r := by
  rw [rawStream, show (624 * q + r) / 624 = q by omega, show (624 * q + r) % 624 = r by omega]

theorem rawStream_twistAll (mt : StateVec) (i : Nat) : rawStream mt (i + 624) = rawStream (twistAll mt) i := by
  have comm : ∀ g, regenTimes mt (g + 1) = regenTimes (twistAll mt) g := by
    intro g
    induction g with
    | zero => rfl
    | succ g ih => rw [regenTimes, ih]; rfl
  rw [rawStream, rawStream, ← comm, show (i + 624) / 624 = i / 624 + 1 by omega, Nat.add_mod_right]

/-- The stream's recurrence: the twist in place is one linear recurrence over the whole stream. -/
theorem rawStream_recurrence (mt : StateVec) (i : Nat) :
    rawStream mt (i + 624) = twistWord (rawStream mt i) (rawStream mt (i + 1)) (rawStream mt (i + 397)) := by
  obtain ⟨q, r, hr, rfl⟩ : ∃ q r, r < 624 ∧ i = 624 * q + r := ⟨i / 624, i % 624, by omega, by omega⟩
  generalize hv : regenTimes mt q = v
  have old : ∀ j, j < 624 → rawStream mt (624 * q + j) = readWord v j := fun j hj => by
    rw [rawStream_batch _ _ _ hj, hv]
  have new : ∀ j, j < 624 → rawStream mt (624 * q + 624 + j) = readWord (twistAll v) j := fun j hj => by
    rw [show 624 * q + 624 + j = 624 * (q + 1) + j by ring, rawStream_batch _ _ _ hj, regenTimes, hv]
  rw [show 624 * q + r + 624 = 624 * q + 624 + r by ring, new r hr, readWord_twistAll v (Nat.lt_succ_self r) hr,
    readWord_twistTo_written v (Nat.lt_succ_self r) hr, old r hr]
  have hb : readWord (twistTo v r) (r + 1) = rawStream mt (624 * q + r + 1) := by
    rcases Nat.lt_or_ge (r + 1) 624 with h | h
    · rw [readWord_twistTo_above _ _ (by omega) h, Nat.add_assoc, old _ h]
    · obtain rfl : r = 623 := by omega
      rw [show 624 * q + 623 + 1 = 624 * q + 624 + 0 by ring, new 0 (by omega),
        readWord_twistAll v (k := 623) (by omega) (by omega), ← readWord_mod _ (623 + 1)]
  have hc : readWord (twistTo v r) (r + 397) = rawStream mt (624 * q + r + 397) := by
    rcases Nat.lt_or_ge (r + 397) 624 with h | h
    · rw [readWord_twistTo_above _ _ (by omega) h, Nat.add_assoc, old _ h]
    · obtain ⟨d, rfl⟩ := Nat.exists_eq_add_of_le (show 227 ≤ r by omega)
      rw [show 624 * q + (227 + d) + 397 = 624 * q + 624 + d by ring, new d (by omega),
        readWord_twistAll v (k := 227 + d) (by omega) (by omega), ← readWord_mod _ (227 + d + 397),
        show (227 + d + 397) % 624 = d by omega]
  rw [hb, hc]

end Sys2Proof.Machine
end

