-- ==== Sys2Proof/Laws/Linear.lean ====
section
/-!
SUPPORT. The stream of raw words as a linear recurrence over the field of two elements, and its consequence: no 19969
consecutive words of the stream all have bit 31 of the tempered word set, from any state vector. The recurrence is a matrix
of polynomials in the shift; its determinant kills every bit of the stream and is not zero at 1, so no bit that is a sum of
stream bits is constantly one over a window longer than the determinant's degree.
-/

namespace Sys2Proof.Machine
open Polynomial

/-- Bit 31 of a tempered word as a sum of bits of the raw word. -/
theorem temper_bit31 (w : Word) :
    bitOf (temper w) 31 = (bitOf w 31 ^^ bitOf w 24 ^^ bitOf w 16 ^^ bitOf w 27) := by
  simp [temper, temper1, temper2, temper3, temper4, bitOf]
  grind

/-- The bits of `UPPER_MASK`. -/
theorem upperMask_bit : ∀ j : Fin 32, bitOf Config.upperMask j = decide (j.val = 31) := by decide

/-- The bits of `LOWER_MASK`. -/
theorem lowerMask_bit : ∀ j : Fin 32, bitOf Config.lowerMask j = decide (j.val < 31) := by decide

/-- The bits of `y` of the twist. -/
theorem twistY_bit (a b : Word) {j : Nat} (hj : j < 32) :
    bitOf (twistY a b) j = if j = 31 then bitOf a 31 else bitOf b j := by
  have hu := upperMask_bit ⟨j, hj⟩
  have hl := lowerMask_bit ⟨j, hj⟩
  simp only [bitOf] at hu hl
  simp only [twistY, bitOf, BitVec.getLsbD_or, BitVec.getLsbD_and, hu, hl]
  split
  · next h => subst h; simp
  · next h => simp [h, show j < 31 by omega]

/-- The bits of a twisted word. -/
theorem twistWord_bit (a b c : Word) {j : Nat} (hj : j < 32) :
    bitOf (twistWord a b c) j =
      (bitOf c j ^^ (if j = 31 then false else if j = 30 then bitOf a 31 else bitOf b (j + 1)) ^^
        (bitOf Config.matrixA j && bitOf b 0)) := by
  have h0 := twistY_bit a b (j := 0) (by omega)
  have hm : bitOf (twistMatrix (bitOf (twistY a b) 0)) j = (bitOf Config.matrixA j && bitOf b 0) := by
    rw [h0, if_neg (by omega), twistMatrix]
    cases bitOf b 0 <;> simp [bitOf]
  have hy : bitOf (twistY a b >>> 1) j = if j = 31 then false else if j = 30 then bitOf a 31 else bitOf b (j + 1) := by
    have : bitOf (twistY a b >>> 1) j = bitOf (twistY a b) (1 + j) := by simp [bitOf]
    rw [this]
    split
    · next h => subst h; simp [bitOf]
    · next h => 
      rw [twistY_bit a b (by omega), Nat.add_comm 1 j]
      congr 1
      simp
  rw [← hm, ← hy]
  simp only [twistWord, bitOf, BitVec.getLsbD_xor]

/-- Bits as elements of the field of two elements. -/
def bitZ (b : Bool) : ZMod 2 := if b then 1 else 0

/-- Exclusive or is addition. -/
theorem bitZ_xor (a b : Bool) : bitZ (a ^^ b) = bitZ a + bitZ b := by cases a <;> cases b <;> decide

/-- And is multiplication. -/
theorem bitZ_and (a b : Bool) : bitZ (a && b) = bitZ a * bitZ b := by cases a <;> cases b <;> decide

/-- Bit `j` of the raw stream, as a sequence. -/
def bitSeq (mt : StateVec) (j : Fin 32) : ℕ → ZMod 2 := fun k => bitZ (bitOf (rawStream mt k) j)

/-- What the first word of the twist contributes to bit `i`. -/
def coefA (i j : Fin 32) : ZMod 2 := if j = 31 then (if i.val = 30 then 1 else 0) else 0

/-- What the second word of the twist contributes to bit `i`. -/
def coefB (i j : Fin 32) : ZMod 2 :=
  (if j = i + 1 then (if i.val < 30 then 1 else 0) else 0) + (if j = 0 then bitZ (bitOf Config.matrixA i) else 0)

/-- The sum that `coefA` stands for. -/
theorem sum_coefA (i : Fin 32) (f : Fin 32 → ZMod 2) : ∑ j, coefA i j * f j = if i.val = 30 then f 31 else 0 := by
  simp [coefA, ite_mul, Finset.sum_ite_eq']

/-- The sum that `coefB` stands for. -/
theorem sum_coefB (i : Fin 32) (f : Fin 32 → ZMod 2) :
    ∑ j, coefB i j * f j = (if i.val < 30 then f (i + 1) else 0) + bitZ (bitOf Config.matrixA i) * f 0 := by
  simp [coefB, add_mul, ite_mul, Finset.sum_add_distrib, Finset.sum_ite_eq']

/-- The recurrence of the stream, bit by bit. -/
theorem bitSeq_recurrence (mt : StateVec) (i : Fin 32) (k : ℕ) :
    bitSeq mt i (k + 624) =
      bitSeq mt i (k + 397) + ∑ j, (coefA i j * bitSeq mt j k + coefB i j * bitSeq mt j (k + 1)) := by
  have h := congrArg (fun w => bitZ (bitOf w i)) (rawStream_recurrence mt k)
  simp only [twistWord_bit _ _ _ i.isLt, bitZ_xor, bitZ_and] at h
  rw [Finset.sum_add_distrib, sum_coefA i (fun j => bitSeq mt j k), sum_coefB i (fun j => bitSeq mt j (k + 1))]
  have hs : bitZ (if i.val = 31 then false else if i.val = 30 then bitOf (rawStream mt k) 31
      else bitOf (rawStream mt (k + 1)) (i + 1)) =
      (if i.val = 30 then bitSeq mt 31 k else 0) + (if i.val < 30 then bitSeq mt (i + 1) (k + 1) else 0) := by
    rcases Nat.lt_trichotomy i.val 30 with hi | hi | hi
    · have : (i + 1 : Fin 32).val = i.val + 1 := by rw [Fin.val_add]; simp; omega
      simp [show i.val ≠ 31 by omega, show i.val ≠ 30 by omega, hi, bitSeq, this]
    · simp [hi, bitSeq]
    · simp [show i.val = 31 by omega, bitZ]
  rw [show bitSeq mt i (k + 624) = _ from h, hs]
  simp only [bitSeq, Fin.val_zero]
  ring

/-- The shift of a sequence. -/
noncomputable def shift : Module.End (ZMod 2) (ℕ → ZMod 2) := LinearMap.funLeft (ZMod 2) (ZMod 2) Nat.succ

/-- A power of the shift moves by its exponent. -/
theorem shift_pow (d : ℕ) (e : ℕ → ZMod 2) (k : ℕ) : (shift ^ d) e k = e (k + d) := by
  induction d generalizing k with
  | zero => rfl
  | succ d ih => rw [pow_succ', Module.End.mul_apply]; exact (ih (k + 1)).trans (by congr 1; omega)

/-- A polynomial in the shift, applied to a sequence. -/
theorem aeval_shift (p : (ZMod 2)[X]) (e : ℕ → ZMod 2) (k : ℕ) :
    aeval shift p e k = ∑ d ∈ Finset.range (p.natDegree + 1), p.coeff d * e (k + d) := by
  rw [aeval_eq_sum_range, LinearMap.sum_apply, Finset.sum_apply]
  exact Finset.sum_congr rfl fun d _ => by rw [LinearMap.smul_apply, Pi.smul_apply, shift_pow, smul_eq_mul]

/-- The recurrence as a matrix of polynomials in the shift. -/
noncomputable def recMatrix (n m : ℕ) : Matrix (Fin 32) (Fin 32) (ZMod 2)[X] :=
  fun i j => (if i = j then X ^ n + X ^ m else 0) + C (coefA i j) + C (coefB i j) * X

/-- Sequences that satisfy the recurrence with offsets `n` and `m`. -/
def Satisfies (n m : ℕ) (e : Fin 32 → ℕ → ZMod 2) : Prop :=
  ∀ i k, e i (k + n) = e i (k + m) + ∑ j, (coefA i j * e j k + coefB i j * e j (k + 1))

/-- The matrix of the recurrence kills its sequences. -/
theorem recMatrix_kills {n m : ℕ} {e : Fin 32 → ℕ → ZMod 2} (h : Satisfies n m e) (i : Fin 32) :
    ∑ j, aeval shift (recMatrix n m i j) (e j) = 0 := by
  funext k
  have hj : ∀ j, aeval shift (recMatrix n m i j) (e j) k =
      (if i = j then e j (k + n) + e j (k + m) else 0) + (coefA i j * e j k + coefB i j * e j (k + 1)) := by
    intro j
    have h1 : shift (e j) k = e j (k + 1) := shift_pow 1 _ _
    by_cases hij : i = j
    · simp [recMatrix, hij, shift_pow, Algebra.algebraMap_eq_smul_one, h1]; ring
    · simp [recMatrix, hij, Algebra.algebraMap_eq_smul_one, h1]
  rw [Finset.sum_apply, Finset.sum_congr rfl fun j _ => hj j, Finset.sum_add_distrib, Finset.sum_ite_eq,
    if_pos (Finset.mem_univ i), h i k, Pi.zero_apply]
  generalize ∑ j, (coefA i j * e j k + coefB i j * e j (k + 1)) = x
  generalize e i (k + m) = y
  revert x y; decide

/-- A determinant kills what its matrix kills. -/
theorem det_kills_of {ι : Type} [Fintype ι] [DecidableEq ι] (A : Matrix ι ι (ZMod 2)[X]) (e : ι → ℕ → ZMod 2)
    (h : ∀ i, ∑ j, aeval shift (A i j) (e j) = 0) (k : ι) : aeval shift A.det (e k) = 0 := by
  have h : ∑ i, aeval shift (A.adjugate k i) (∑ j, aeval shift (A i j) (e j)) = 0 := by simp [h]
  simp only [map_sum, ← Module.End.mul_apply, ← map_mul] at h
  rw [Finset.sum_comm] at h
  have hc : ∀ j, ∑ i, aeval shift (A.adjugate k i * A i j) (e j) = if k = j then aeval shift A.det (e j) else 0 := by
    intro j
    rw [← LinearMap.sum_apply, ← map_sum, ← Matrix.mul_apply, Matrix.adjugate_mul, Matrix.smul_apply, Matrix.one_apply]
    split <;> simp
  rw [Finset.sum_congr rfl fun j _ => hc j, Finset.sum_ite_eq] at h
  simpa using h

/-- The determinant of the recurrence's matrix kills each of its sequences. -/
theorem det_kills {n m : ℕ} {e : Fin 32 → ℕ → ZMod 2} (hs : Satisfies n m e) (k : Fin 32) :
    aeval shift (recMatrix n m).det (e k) = 0 := det_kills_of _ e (recMatrix_kills hs) k

/-- At 1 the determinant is that of the twist matrix, which is invertible. -/
theorem det_eval_one (n m : ℕ) : (recMatrix n m).det.eval 1 ≠ 0 := by
  have hm : (recMatrix n m).det.eval 1 = Matrix.det (fun i j : Fin 32 => coefA i j + coefB i j) := by
    rw [← Polynomial.coe_evalRingHom, RingHom.map_det]
    congr 1
    ext i j
    simp only [RingHom.mapMatrix_apply, Matrix.map_apply, recMatrix, Polynomial.coe_evalRingHom]
    split
    · simp [show (1 : ZMod 2) + 1 = 0 by decide]
    · simp
  rw [hm]
  intro h0
  obtain ⟨v, hv, hz⟩ := Matrix.exists_mulVec_eq_zero_iff.mpr h0
  have hrow : ∀ i : Fin 32, (if i.val = 30 then v 31 else 0) +
      ((if i.val < 30 then v (i + 1) else 0) + bitZ (bitOf Config.matrixA i) * v 0) = 0 := by
    intro i
    have := congrFun hz i
    simp only [Matrix.mulVec, dotProduct, add_mul, Finset.sum_add_distrib, sum_coefA i v, sum_coefB i v,
      Pi.zero_apply] at this
    exact this
  have v0 : v 0 = 0 := by
    have := hrow 31
    rw [show bitOf Config.matrixA (31 : Fin 32).val = true by decide] at this
    simpa [bitZ] using this
  apply hv
  funext j
  rcases Fin.eq_zero_or_eq_succ j with rfl | ⟨i, rfl⟩
  · exact v0
  · have := hrow i.castSucc
    rw [v0] at this
    rcases Nat.lt_or_ge i.val 30 with hi | hi
    · simpa [hi, show i.val ≠ 30 by omega] using this
    · obtain rfl : i = 30 := by ext; simp; omega
      simpa using this

/-- The determinant's degree. -/
theorem det_natDegree {n m : ℕ} (hm : m ≤ n) (hn : 1 ≤ n) : (recMatrix n m).det.natDegree ≤ 32 * n := by
  rw [Matrix.det_apply]
  refine natDegree_sum_le_of_forall_le _ _ fun σ _ => ?_
  refine (natDegree_smul_le _ _).trans ((natDegree_prod_le _ _).trans ?_)
  refine (Finset.sum_le_card_nsmul _ _ n fun i _ => ?_).trans (by simp)
  have hd : ∀ i j, (recMatrix n m i j).natDegree ≤ n := by
    intro i j
    simp only [recMatrix]
    split <;> compute_degree <;> omega
  exact hd _ _

/-- A sum of sequences of the recurrence is not constantly one over a window of `32 * n + 1`. -/
theorem not_all_ones {n m : ℕ} (hm : m ≤ n) (hn : 1 ≤ n)
    {f : ℕ → ZMod 2} (hf : aeval shift (recMatrix n m).det f = 0) (c : ℕ) (h1 : ∀ k, k ≤ 32 * n → f (c + k) = 1) : False := by
  have hz := congrFun hf c
  rw [aeval_shift] at hz
  apply det_eval_one n m
  rw [eval_eq_sum_range]
  refine Eq.trans (Finset.sum_congr rfl fun d hd => ?_) hz
  have := det_natDegree hm hn
  rw [h1 d (by simp at hd; omega)]
  simp

/-- Among any 19969 consecutive words of the stream, one has bit 31 of the tempered word clear. -/
theorem bit31_clear (mt : StateVec) (c : ℕ) : ∃ k, k ≤ 19968 ∧ bitOf (temper (rawStream mt (c + k))) 31 = false := by
  by_contra hall
  have hs : Satisfies 624 397 (bitSeq mt) := fun i k => bitSeq_recurrence mt i k
  refine not_all_ones (n := 624) (m := 397) (by omega) (by omega)
    (f := bitSeq mt 31 + bitSeq mt 24 + bitSeq mt 16 + bitSeq mt 27)
    (by rw [map_add, map_add, map_add, det_kills hs, det_kills hs, det_kills hs, det_kills hs]; simp) c ?_
  intro k hk
  have ht : bitOf (temper (rawStream mt (c + k))) 31 = true := by
    by_contra hne
    exact hall ⟨k, by omega, by simpa using hne⟩
  have := congrArg bitZ ht
  rw [temper_bit31, bitZ_xor, bitZ_xor, bitZ_xor] at this
  exact this

end Sys2Proof.Machine
end

