-- ==== Sys2Proof/Laws/Draws.lean ====
section
/-!
SUPPORT. What a draw does (42_draw.md rule R204), said once: its state, the word it gives, its frame, and the words of
repeated draws as words of the raw stream.
-/

namespace Sys2Proof.Machine

theorem exhausted_iff (s : State) : exhausted s = true ↔ 624 ≤ s.idx.toNat := by simp [exhausted]

theorem not_exhausted_iff (s : State) : exhausted s = false ↔ s.idx.toNat < 624 := by simp [exhausted]

/-- A draw with words left. -/
theorem draw_of_lt {s : State} (h : s.idx.toNat < 624) : draw s = takeWord s := by
  rw [draw, refill, (not_exhausted_iff s).mpr h]; rfl

/-- A draw of an exhausted engine. -/
theorem draw_of_ge {s : State} (h : 624 ≤ s.idx.toNat) : draw s = takeWord (regen s) := by
  rw [draw, refill, (exhausted_iff s).mpr h]; rfl

/-- Everything a draw leaves alone. -/
theorem draw_frame (s : State) :
    (draw s).seeded = s.seeded ∧ (draw s).fsm = s.fsm ∧ (draw s).prev = s.prev ∧ (draw s).opR = s.opR ∧
    (draw s).argR = s.argR ∧ (draw s).stR = s.stR ∧ (draw s).dataR = s.dataR ∧ (draw s).wasReset = s.wasReset ∧
    (draw s).level = s.level ∧ (draw s).host = s.host := by
  rcases Nat.lt_or_ge s.idx.toNat 624 with h | h
  · simp [draw_of_lt h]
  · simp [draw_of_ge h]

/-- The increment of the cursor never wraps below 624. -/
theorem idx_succ {i : Idx} (h : i.toNat < 624) : (i + 1#10).toNat = i.toNat + 1 := by
  rw [BitVec.toNat_add]; simp; omega

/-- After a draw the cursor is between 1 and 624. -/
theorem draw_idx (s : State) : 1 ≤ (draw s).idx.toNat ∧ (draw s).idx.toNat ≤ 624 := by
  rcases Nat.lt_or_ge s.idx.toNat 624 with h | h
  · rw [draw_of_lt h, takeWord_idx, idx_succ h]; omega
  · rw [draw_of_ge h, takeWord_idx, regen_idx]; decide

/-- Everything repeated draws leave alone. -/
theorem drawTimes_frame (k : Nat) (s : State) :
    (drawTimes k s).seeded = s.seeded ∧ (drawTimes k s).fsm = s.fsm ∧ (drawTimes k s).prev = s.prev ∧
    (drawTimes k s).opR = s.opR ∧ (drawTimes k s).argR = s.argR ∧ (drawTimes k s).stR = s.stR ∧
    (drawTimes k s).dataR = s.dataR ∧ (drawTimes k s).wasReset = s.wasReset ∧ (drawTimes k s).level = s.level ∧
    (drawTimes k s).host = s.host := by
  induction k generalizing s with
  | zero => simp [drawTimes]
  | succ k ih => simp [drawTimes, ih, draw_frame s]

/-- `k + 1` draws are `k` draws and one more. -/
theorem drawTimes_succ (k : Nat) (s : State) : drawTimes (k + 1) s = draw (drawTimes k s) := by
  induction k generalizing s with
  | zero => rfl
  | succ k ih => exact ih (draw s)

theorem drawnAt_succ (s : State) (k : Nat) : drawnAt s (k + 1) = drawnAt (draw s) k := rfl

/-- The words of repeated draws are consecutive tempered words of the raw stream. -/
theorem drawnAt_stream (k : Nat) (s : State) :
    drawnAt s k = temper (rawStream s.mt (min s.idx.toNat 624 + k)) := by
  induction k generalizing s with
  | zero =>
    show (draw s).yR = _
    rcases Nat.lt_or_ge s.idx.toNat 624 with h | h
    · rw [draw_of_lt h, takeWord_yR, Nat.min_eq_left (by omega), Nat.add_zero, rawStream_lt _ h]
    · rw [draw_of_ge h, takeWord_yR, Nat.min_eq_right h, regen_mt, regen_idx, show (624 + 0) = 0 + 624 by rfl,
        rawStream_twistAll, rawStream_lt _ (by omega)]
      rfl
  | succ k ih =>
    rw [drawnAt_succ, ih]
    rcases Nat.lt_or_ge s.idx.toNat 624 with h | h
    · rw [draw_of_lt h, takeWord_mt, takeWord_idx, idx_succ h, Nat.min_eq_left (by omega), Nat.min_eq_left (by omega)]
      congr 2; omega
    · rw [draw_of_ge h, takeWord_mt, takeWord_idx, regen_mt, regen_idx, Nat.min_eq_right h]
      rw [show (0#10 + 1#10).toNat = 1 by rfl, ← rawStream_twistAll]
      congr 2; omega

end Sys2Proof.Machine
end

