-- ==== Sys2Proof/Laws/Bounded.lean ====
section
/-!
SUPPORT. The rejection loop of BOUNDED (43_bounded.md rules R244, R248): what it answers when a word is accepted within its
passes, and that within 19969 words one is.
-/

namespace Sys2Proof.Machine

theorem bitsOf_lt (w : Word) : bitsOf w < 2147483648 := by
  have := w.isLt
  simp only [bitsOf, BitVec.toNat_ushiftRight, Nat.shiftRight_eq_div_pow]
  omega

/-- A bound that passes the argument check is the argument itself, from 2 to 2^31 - 1. -/
theorem boundNat_spec {arg : Word} (h : badBound arg = false) :
    boundNat arg = arg.toNat ∧ 2 ≤ boundNat arg ∧ boundNat arg ≤ 2147483647 ∧ (boundNat arg : Int) = sint32 arg := by
  have hn : ¬ sint32 arg ≤ 1 := of_decide_eq_false h
  have hlt := arg.isLt
  simp only [boundNat, boundOperand]
  rcases Nat.lt_or_ge arg.toNat 2147483648 with hs | hs
  · have he : sint32 arg = (arg.toNat : Int) := by rw [sint32, if_pos hs]
    rw [he] at hn ⊢
    omega
  · have he : sint32 arg = (arg.toNat : Int) - 4294967296 := by rw [sint32, if_neg (by omega)]
    omega

/-- The argument check on the signed value. -/
theorem badBound_eq_false {arg : Word} : badBound arg = false ↔ 1 < sint32 arg :=
  ⟨fun h => not_le.mp (of_decide_eq_false h), fun h => decide_eq_false (not_le.mpr h)⟩

/-- The power-of-two test of a legal bound. -/
theorem isPow2_iff {n : Nat} (h : 2 ≤ n) : isPow2 n = true ↔ ∃ k, n = 2 ^ k := by
  simp only [isPow2, beq_iff_eq]
  exact Nat.and_sub_one_eq_zero_iff_isPowerOfTwo (by omega)

/-- A word whose bit 31 is clear is accepted for every bound. -/
theorem accepts_of_bit31_clear {n : Nat} {w : Word} (h1 : 1 ≤ n) (h2 : n ≤ 2147483647) (h : bitOf w 31 = false) :
    accepts n (bitsOf w) = true := by
  have hw : bitsOf w < 1073741824 := by
    have hm : w.msb = false := by rw [BitVec.msb_eq_getLsbD_last]; exact h
    have := BitVec.toNat_lt_of_msb_false hm
    simp only [bitsOf, BitVec.toNat_ushiftRight, Nat.shiftRight_eq_div_pow]
    omega
  simp only [accepts, decide_eq_true_eq]
  rcases Nat.lt_or_ge (bitsOf w) n with hn | hn
  · rw [Nat.mod_eq_of_lt hn]; omega
  · have := Nat.mod_lt (bitsOf w) (show 0 < n by omega)
    omega

/-- The loop with a word accepted within its passes answers from the state after that word. -/
theorem rejectionLoop_accepted {n j k : Nat} {s : State} (h : FirstAccepted n j s) (hj : j < k) :
    rejectionLoop n k s = respond .ok (BitVec.ofNat 32 (caseB n (bitsOf (drawnAt s j)))) (drawTimes (j + 1) s) := by
  induction j generalizing s k with
  | zero =>
    obtain ⟨k, rfl⟩ := Nat.exists_eq_add_of_lt hj
    have h0 : accepts n (bitsOf (draw s).yR) = true := h.2
    simp [rejectionLoop, h0, drawnAt, drawTimes]
  | succ j ih =>
    obtain ⟨k, rfl⟩ : ∃ m, k = m + 1 := ⟨k - 1, by omega⟩
    have h0 : accepts n (bitsOf (draw s).yR) = false := h.1 0 (by omega)
    have hs : FirstAccepted n j (draw s) := ⟨fun i hi => h.1 (i + 1) (by omega), h.2⟩
    simp only [rejectionLoop, h0]
    exact ih hs (by omega)

/-- From every state a word is accepted within 19969 draws. -/
theorem firstAccepted_exists {n : Nat} (s : State) (h1 : 1 ≤ n) (h2 : n ≤ 2147483647) :
    ∃ j, j ≤ 19968 ∧ FirstAccepted n j s := by
  obtain ⟨k, hk, hb⟩ := bit31_clear s.mt (min s.idx.toNat 624)
  have hex : ∃ j, accepts n (bitsOf (drawnAt s j)) = true :=
    ⟨k, accepts_of_bit31_clear h1 h2 (by rw [drawnAt_stream]; exact hb)⟩
  have hle := Nat.find_min' hex (accepts_of_bit31_clear h1 h2 (by rw [drawnAt_stream]; exact hb) :
    accepts n (bitsOf (drawnAt s k)) = true)
  refine ⟨Nat.find hex, by omega, fun i hi => ?_, Nat.find_spec hex⟩
  have := Nat.find_min hex hi
  simpa using this

/-- So the passes one step runs never run out: the model's step bound is not observable (43_bounded.md R249, log 6). -/
theorem rejectionLoop_ends {n : Nat} (s : State) (h1 : 1 ≤ n) (h2 : n ≤ 2147483647) :
    ∃ j, j ≤ 19968 ∧ FirstAccepted n j s ∧ rejectionLoop n Config.loopPasses s =
      respond .ok (BitVec.ofNat 32 (caseB n (bitsOf (drawnAt s j)))) (drawTimes (j + 1) s) := by
  obtain ⟨j, hj, hf⟩ := firstAccepted_exists s h1 h2
  exact ⟨j, hj, hf, rejectionLoop_accepted hf (by rw [Config.loopPasses]; omega)⟩

/-- The words drawn do not depend on the latched command. -/
theorem drawnAt_latch (op : Opcode) (arg : Word) (s : State) (k : Nat) : drawnAt (latch op arg s) k = drawnAt s k := by
  rw [drawnAt_stream, drawnAt_stream]; rfl

/-- Everything BOUNDED does, in the order of its pseudocode (43_bounded.md R240). -/
theorem exec_bounded_cases (arg : Word) (s : State) :
    (badBound arg = true ∧ exec (.bounded arg) s = .next (raise .invalidArgument (latch opBounded arg s))) ∨
    (badBound arg = false ∧ s.seeded = false ∧
      exec (.bounded arg) s = .next (raise .notSeeded (latch opBounded arg s))) ∨
    (badBound arg = false ∧ s.seeded = true ∧ (∃ k, arg.toNat = 2 ^ k) ∧ exec (.bounded arg) s =
      .next (respond .ok (BitVec.ofNat 32 (caseA arg.toNat (bitsOf (drawnAt s 0)))) (draw (latch opBounded arg s)))) ∨
    (badBound arg = false ∧ s.seeded = true ∧ (¬∃ k, arg.toNat = 2 ^ k) ∧ ∃ j, j ≤ 19968 ∧
      FirstAccepted arg.toNat j s ∧ exec (.bounded arg) s =
        .next (respond .ok (BitVec.ofNat 32 (caseB arg.toNat (bitsOf (drawnAt s j))))
          (drawTimes (j + 1) (latch opBounded arg s)))) := by
  cases hb : badBound arg with
  | true => left; exact ⟨rfl, by simp [exec, execBounded, hb]⟩
  | false =>
    right
    obtain ⟨e1, e2, e3, e4⟩ := boundNat_spec hb
    cases hs : s.seeded with
    | false => left; exact ⟨rfl, rfl, by simp [exec, execBounded, hb, hs]⟩
    | true =>
      right
      by_cases hp : isPow2 arg.toNat = true
      · left
        refine ⟨rfl, rfl, (isPow2_iff (by omega)).mp hp, ?_⟩
        rw [← drawnAt_latch opBounded arg s 0]
        simp [exec, execBounded, hb, hs, e1, hp]; rfl
      · right
        refine ⟨rfl, rfl, fun h => hp ((isPow2_iff (by omega)).mpr h), ?_⟩
        obtain ⟨j, hj, hf, he⟩ := rejectionLoop_ends (n := arg.toNat) (latch opBounded arg s) (by omega) (by omega)
        simp only [FirstAccepted, drawnAt_latch] at hf he
        exact ⟨j, hj, hf, by simp [exec, execBounded, hb, hs, e1, hp, he]⟩

end Sys2Proof.Machine
end

