-- ==== Sys2Proof/Laws/Sequencer.lean ====
section
/-!
SUPPORT. The sequencer's edge (44_sequencer.md rules R274 to R279, R287; 70_reset_and_hazards.md rule R350), one lemma per state
of `fsm`, what the checks of R274 answer, and runs of edges put together.
-/

namespace Sys2Proof.Machine

theorem edge_of_rst {p : Pins} (h : p.rst = true) (s : State) : edge p s = .next (resetEdge s) := by simp [edge, h]

theorem edge_of_run {p : Pins} {s : State} (h : p.rst = false) (hw : s.wasReset = true) : edge p s = runEdge p s := by
  simp [edge, h, hw]

theorem edge_refused {p : Pins} {s : State} (h : p.rst = false) (hw : s.wasReset = false) :
    edge p s = .refused .beforeFirstReset := by simp [edge, h, hw]

theorem runEdge_idle (p : Pins) {s : State} (h : s.fsm = .idle) : runEdge p s = .next (idleEdge p s) := by simp [runEdge, h]

theorem runEdge_seed (p : Pins) {s : State} (h : s.fsm = .seed) : runEdge p s = seedEdge s := by simp [runEdge, h]

theorem runEdge_draw (p : Pins) {s : State} (h : s.fsm = .draw) : runEdge p s = .next (drawEdge s) := by simp [runEdge, h]

theorem runEdge_twist (p : Pins) {s : State} (h : s.fsm = .twist) : runEdge p s = twistEdge s := by simp [runEdge, h]

theorem runEdge_post (p : Pins) {s : State} (h : s.fsm = .post) : runEdge p s = postEdge s := by simp [runEdge, h]

theorem runEdge_resp (p : Pins) {s : State} (h : s.fsm = .resp) : runEdge p s = .next (respEdge p s) := by simp [runEdge, h]

theorem runEdge_unused (p : Pins) {s : State} (h : s.fsm = .unused6 ∨ s.fsm = .unused7) :
    runEdge p s = .next (upsetEdge s) := by
  rcases h with h | h <;> simp [runEdge, h]

/-- POST of WORD (44_sequencer.md R278). -/
theorem postEdge_word {s : State} (h : s.opR = opWord) : postEdge s = .next (respond .ok s.yR s) := by simp [postEdge, h]

/-- POST of BOOL. -/
theorem postEdge_bool {s : State} (h : s.opR = opBool) :
    postEdge s = .next (respond .ok (zext32 (bitOf s.yR 31)) s) := by
  rw [postEdge, h, if_neg (by decide), if_pos rfl]

/-- POST of BOUNDED with a power of two. -/
theorem postEdge_caseA {s : State} {n : Word} (h : s.opR = opBounded) (hn : s.argR = n) (hb : badBound n = false)
    (hk : ∃ k, n.toNat = 2 ^ k) :
    postEdge s = .next (respond .ok (BitVec.ofNat 32 (caseA n.toNat (bitsOf s.yR))) s) := by
  obtain ⟨e1, e2, -⟩ := boundNat_spec hb
  subst hn
  rw [postEdge, if_neg (by rw [h]; decide), if_neg (by rw [h]; decide), if_pos ⟨h, hb⟩, postBounded, e1,
    (isPow2_iff (by omega)).mpr hk, if_pos rfl]

/-- POST of BOUNDED with another bound. -/
theorem postEdge_caseB {s : State} {n : Word} (h : s.opR = opBounded) (hn : s.argR = n) (hb : badBound n = false)
    (hk : ¬∃ k, n.toNat = 2 ^ k) :
    postEdge s = .next (if accepts n.toNat (bitsOf s.yR) then
      respond .ok (BitVec.ofNat 32 (caseB n.toNat (bitsOf s.yR))) s else { s with fsm := .draw }) := by
  obtain ⟨e1, e2, -⟩ := boundNat_spec hb
  subst hn
  rw [postEdge, if_neg (by rw [h]; decide), if_neg (by rw [h]; decide), if_pos ⟨h, hb⟩, postBounded, e1,
    if_neg (fun h => hk ((isPow2_iff (by omega)).mp h))]

/-- A run of edges goes on from where a first part of it ends. -/
theorem edges_append {ps qs : List Pins} {s t : State} (h : edges ps s = .next t) : edges (ps ++ qs) s = edges qs t := by
  induction ps generalizing s with
  | nil => cases h; rfl
  | cons p ps ih =>
    simp only [List.cons_append, edges] at h ⊢
    split at h
    · next u hu => exact ih h
    · cases h
    · cases h

/-- The checks of R274 on each opcode, in the priority of 60_exceptions.md R314. -/
theorem commandError_cases (op : Opcode) (arg : Word) (b : Bool) :
    (reservedOp op = true ∧ commandError op arg b = some .illegalOp) ∨
    (op = opSeed ∧ commandError op arg b = none) ∨
    ((op = opWord ∨ op = opBool) ∧ commandError op arg b = if b then none else some .notSeeded) ∨
    (op = opBounded ∧ badBound arg = true ∧ commandError op arg b = some .invalidArgument) ∨
    (op = opBounded ∧ badBound arg = false ∧ commandError op arg b = if b then none else some .notSeeded) := by
  have ho : op = 0b000#3 ∨ op = 0b001#3 ∨ op = 0b010#3 ∨ op = 0b011#3 ∨ op = 0b100#3 ∨ op = 0b101#3 ∨ op = 0b110#3 ∨
      op = 0b111#3 := by revert op; decide
  rcases ho with rfl | rfl | rfl | rfl | rfl | rfl | rfl | rfl <;> cases b <;>
    cases hb : badBound arg <;> simp [commandError, reservedOp, isDrawOp, hb, opSeed, opWord, opBool, opBounded]

end Sys2Proof.Machine
end

