-- ==== Sys2Proof/Laws/Commands.lean ====
section
/-!
SUPPORT. What a whole command does, said once: the commands WORD and BOOL, the decoding of the ports, every command of every
opcode; and that draws depend on the architectural state alone.
-/

namespace Sys2Proof.Machine

/-- Equal triples make equal architectural states. -/
theorem arch_ext {s t : State} (hm : s.mt = t.mt) (hi : s.idx = t.idx) (hs : s.seeded = t.seeded) : arch s = arch t := by
  simp [arch, hm, hi, hs]

/-- Equal architectural states have equal triples. -/
theorem arch_inj {s t : State} (h : arch s = arch t) : s.mt = t.mt ∧ s.idx = t.idx ∧ s.seeded = t.seeded := by
  simpa [arch] using h

/-- A draw's architectural effect depends on the architectural state alone. -/
theorem arch_draw {s t : State} (h : arch s = arch t) : arch (draw s) = arch (draw t) := by
  obtain ⟨h1, h2, h3⟩ := arch_inj h
  rcases Nat.lt_or_ge s.idx.toNat 624 with hh | hh
  · rw [draw_of_lt hh, draw_of_lt (by rw [← h2]; exact hh)]
    apply arch_ext <;> simp [h1, h2, h3]
  · rw [draw_of_ge hh, draw_of_ge (by rw [← h2]; exact hh)]
    apply arch_ext <;> simp [h1, h3]

/-- So do repeated draws. -/
theorem arch_drawTimes (k : Nat) {s t : State} (h : arch s = arch t) : arch (drawTimes k s) = arch (drawTimes k t) := by
  induction k generalizing s t with
  | zero => exact h
  | succ k ih => exact ih (arch_draw h)

/-- So do the words they give. -/
theorem arch_drawnAt (k : Nat) {s t : State} (h : arch s = arch t) : drawnAt s k = drawnAt t k := by
  obtain ⟨h1, h2, -⟩ := arch_inj h
  rw [drawnAt_stream, drawnAt_stream, h1, h2]

/-- So does the word a rejection loop accepts. -/
theorem arch_firstAccepted {n j : Nat} {s t : State} (h : arch s = arch t) (hf : FirstAccepted n j s) :
    FirstAccepted n j t := by
  simpa only [FirstAccepted, fun k => arch_drawnAt k h] using hf

/-- A rejection loop accepts at one place. -/
theorem firstAccepted_unique {n j k : Nat} {s : State} (hj : FirstAccepted n j s) (hk : FirstAccepted n k s) : j = k := by
  rcases Nat.lt_trichotomy j k with h | h | h
  · have := hk.1 j h; rw [hj.2] at this; cases this
  · exact h
  · have := hj.1 k h; rw [hk.2] at this; cases this

/-- Latching a command leaves the architectural state alone. -/
theorem arch_latch (op : Opcode) (arg : Word) (s : State) : arch (latch op arg s) = arch s := rfl

/-- The state after SEED (40_seed.md R140): the vector is written as a function of the seed alone (R144). -/
def afterSeed (arg : Word) (s : State) : State :=
  respond .ok 0#32 { latch opSeed arg s with
    mt := batch arg 0, idx := 624#10, seeded := true, cnt := 623#10, prev := readWord (batch arg 0) 623 }

@[simp] theorem afterSeed_mt (arg : Word) (s : State) : (afterSeed arg s).mt = batch arg 0 := rfl
@[simp] theorem afterSeed_idx (arg : Word) (s : State) : (afterSeed arg s).idx = 624#10 := rfl
@[simp] theorem afterSeed_seeded (arg : Word) (s : State) : (afterSeed arg s).seeded = true := rfl
@[simp] theorem afterSeed_fsm (arg : Word) (s : State) : (afterSeed arg s).fsm = .resp := rfl
@[simp] theorem afterSeed_cnt (arg : Word) (s : State) : (afterSeed arg s).cnt = 623#10 := rfl
@[simp] theorem afterSeed_prev (arg : Word) (s : State) : (afterSeed arg s).prev = readWord (batch arg 0) 623 := rfl
@[simp] theorem afterSeed_opR (arg : Word) (s : State) : (afterSeed arg s).opR = opSeed := rfl
@[simp] theorem afterSeed_argR (arg : Word) (s : State) : (afterSeed arg s).argR = arg := rfl
@[simp] theorem afterSeed_yR (arg : Word) (s : State) : (afterSeed arg s).yR = s.yR := rfl
@[simp] theorem afterSeed_stR (arg : Word) (s : State) : (afterSeed arg s).stR = .ok := rfl
@[simp] theorem afterSeed_dataR (arg : Word) (s : State) : (afterSeed arg s).dataR = 0#32 := rfl
@[simp] theorem afterSeed_wasReset (arg : Word) (s : State) : (afterSeed arg s).wasReset = s.wasReset := rfl
@[simp] theorem afterSeed_level (arg : Word) (s : State) : (afterSeed arg s).level = s.level := rfl
@[simp] theorem afterSeed_host (arg : Word) (s : State) : (afterSeed arg s).host = s.host := rfl

/-- The vector SEED leaves, whatever it was. -/
theorem seedVec_batch (seed : Word) (mt : StateVec) : seedVec seed mt = batch seed 0 := seedVec_base _ _ _

/-- Everything SEED does (40_seed.md R140). -/
theorem exec_seed (arg : Word) (s : State) : exec (.seed arg) s = .next (afterSeed arg s) := by
  rw [afterSeed, ← seedVec_batch arg s.mt]
  rfl

/-- The response of a command that has ended. -/
theorem response_respond (st : Status) (d : Word) (s : State) : response (respond st d s) = some (st, d) := rfl

/-- The response of an error. -/
theorem response_raise (e : Status) (s : State) : response (raise e s) = some (e, 0#32) := rfl

/-- Ending a command leaves the architectural state alone. -/
theorem arch_respond (st : Status) (d : Word) (s : State) : arch (respond st d s) = arch s := rfl

/-- So does an error. -/
theorem arch_raise (e : Status) (s : State) : arch (raise e s) = arch s := rfl

/-- Everything WORD does (42_draw.md R205). -/
theorem exec_word_cases (x : Word) (s : State) :
    (s.seeded = true ∧ exec (.word x) s = .next (respond .ok (drawnAt s 0) (draw (latch opWord x s)))) ∨
    (s.seeded = false ∧ exec (.word x) s = .next (raise .notSeeded (latch opWord x s))) := by
  rw [← drawnAt_latch opWord x s 0]
  cases hs : s.seeded <;> simp [exec, execWord, hs, drawnAt, drawTimes]

/-- Everything BOOL does (42_draw.md R206). -/
theorem exec_bool_cases (x : Word) (s : State) :
    (s.seeded = true ∧ exec (.bool x) s =
      .next (respond .ok (zext32 (bitOf (drawnAt s 0) 31)) (draw (latch opBool x s)))) ∨
    (s.seeded = false ∧ exec (.bool x) s = .next (raise .notSeeded (latch opBool x s))) := by
  rw [← drawnAt_latch opBool x s 0]
  cases hs : s.seeded <;> simp [exec, execBool, hs, drawnAt, drawTimes]

/-- The opcodes one by one. -/
theorem opcode_cases (op : Opcode) : op = 0b000#3 ∨ op = 0b001#3 ∨ op = 0b010#3 ∨ op = 0b011#3 ∨ op = 0b100#3 ∨
    op = 0b101#3 ∨ op = 0b110#3 ∨ op = 0b111#3 := by revert op; decide

/-- What the ports decode to (30_encoding.md R117). -/
theorem decodePorts_cases (op : Opcode) (arg : Word) :
    (op = opSeed ∧ decodePorts op arg = .ok (.seed arg)) ∨ (op = opWord ∧ decodePorts op arg = .ok (.word arg)) ∨
    (op = opBool ∧ decodePorts op arg = .ok (.bool arg)) ∨ (op = opBounded ∧ decodePorts op arg = .ok (.bounded arg)) ∨
    (reservedOp op = true ∧ decodePorts op arg = .error (.illegalOp op)) := by
  rcases opcode_cases op with rfl | rfl | rfl | rfl | rfl | rfl | rfl | rfl <;>
    simp [decodePorts, reservedOp, opSeed, opWord, opBool, opBounded]

/-- The checks of R274, opcode by opcode. -/
theorem commandError_seed (arg : Word) (b : Bool) : commandError opSeed arg b = none := rfl

theorem commandError_word (arg : Word) (b : Bool) : commandError opWord arg b = if b then none else some .notSeeded := by
  cases b <;> rfl

theorem commandError_bool (arg : Word) (b : Bool) : commandError opBool arg b = if b then none else some .notSeeded := by
  cases b <;> rfl

theorem commandError_bounded (arg : Word) (b : Bool) : commandError opBounded arg b =
    if badBound arg then some .invalidArgument else if b then none else some .notSeeded := by
  cases h : badBound arg <;> cases b <;> simp [commandError, reservedOp, isDrawOp, opBounded, h]

theorem commandError_reserved {op : Opcode} (h : reservedOp op = true) (arg : Word) (b : Bool) :
    commandError op arg b = some .illegalOp := by simp [commandError, h]

/-- What a draw command that passes its checks answers (42_draw.md R205, R206; 43_bounded.md R243, R244). -/
inductive DrawAnswer (op : Opcode) (arg : Word) (s : State) (t : State) : Prop where
  | word (ho : op = opWord) (ht : t = respond .ok (drawnAt s 0) (draw (latch op arg s)))
  | bool (ho : op = opBool) (ht : t = respond .ok (zext32 (bitOf (drawnAt s 0) 31)) (draw (latch op arg s)))
  | caseA (ho : op = opBounded) (hb : badBound arg = false) (hk : ∃ k, arg.toNat = 2 ^ k)
      (ht : t = respond .ok (BitVec.ofNat 32 (Machine.caseA arg.toNat (bitsOf (drawnAt s 0)))) (draw (latch op arg s)))
  | caseB (ho : op = opBounded) (hb : badBound arg = false) (hk : ¬∃ k, arg.toNat = 2 ^ k) (j : Nat) (hj : j ≤ 19968)
      (hf : FirstAccepted arg.toNat j s)
      (ht : t = respond .ok (BitVec.ofNat 32 (Machine.caseB arg.toNat (bitsOf (drawnAt s j))))
        (drawTimes (j + 1) (latch op arg s)))

/-- Everything a whole command does, of any opcode: SEED, an error, or a draw (44_sequencer.md R271, R274). -/
theorem transact_cases (op : Opcode) (arg : Word) (s : State) : ∃ t, transact op arg s = .next t ∧
    ((op = opSeed ∧ commandError op arg s.seeded = none ∧ t = afterSeed arg s) ∨
    (op ≠ opSeed ∧ ∃ e, commandError op arg s.seeded = some e ∧ e ≠ .ok ∧ t = raise e (latch op arg s)) ∨
    (op ≠ opSeed ∧ s.seeded = true ∧ commandError op arg s.seeded = none ∧ DrawAnswer op arg s t)) := by
  rcases decodePorts_cases op arg with ⟨rfl, h⟩ | ⟨rfl, h⟩ | ⟨rfl, h⟩ | ⟨rfl, h⟩ | ⟨hr, h⟩
  · exact ⟨_, by rw [transact, h]; exact exec_seed arg s, .inl ⟨rfl, commandError_seed _ _, rfl⟩⟩
  · rcases exec_word_cases arg s with ⟨hs, he⟩ | ⟨hs, he⟩
    · exact ⟨_, by rw [transact, h]; exact he, .inr (.inr ⟨by decide, hs, by simp [commandError_word, hs],
        .word rfl rfl⟩)⟩
    · exact ⟨_, by rw [transact, h]; exact he, .inr (.inl ⟨by decide, .notSeeded,
        by simp [commandError_word, hs], by decide, rfl⟩)⟩
  · rcases exec_bool_cases arg s with ⟨hs, he⟩ | ⟨hs, he⟩
    · exact ⟨_, by rw [transact, h]; exact he, .inr (.inr ⟨by decide, hs, by simp [commandError_bool, hs],
        .bool rfl rfl⟩)⟩
    · exact ⟨_, by rw [transact, h]; exact he, .inr (.inl ⟨by decide, .notSeeded,
        by simp [commandError_bool, hs], by decide, rfl⟩)⟩
  · rcases exec_bounded_cases arg s with ⟨hb, he⟩ | ⟨hb, hs, he⟩ | ⟨hb, hs, hk, he⟩ | ⟨hb, hs, hk, j, hj, hf, he⟩
    · exact ⟨_, by rw [transact, h]; exact he, .inr (.inl ⟨by decide, .invalidArgument,
        by simp [commandError_bounded, hb], by decide, rfl⟩)⟩
    · exact ⟨_, by rw [transact, h]; exact he, .inr (.inl ⟨by decide, .notSeeded,
        by simp [commandError_bounded, hb, hs], by decide, rfl⟩)⟩
    · exact ⟨_, by rw [transact, h]; exact he, .inr (.inr ⟨by decide, hs, by simp [commandError_bounded, hb, hs],
        .caseA rfl hb hk rfl⟩)⟩
    · exact ⟨_, by rw [transact, h]; exact he, .inr (.inr ⟨by decide, hs, by simp [commandError_bounded, hb, hs],
        .caseB rfl hb hk j hj hf rfl⟩)⟩
  · have hn : op ≠ opSeed := by rintro rfl; simp [reservedOp, opSeed] at hr
    exact ⟨_, by rw [transact, h]; rfl, .inr (.inl ⟨hn, .illegalOp, commandError_reserved hr _ _, by decide, rfl⟩)⟩

end Sys2Proof.Machine
end

