-- ==== Sys2Proof/Laws/Runs.lean ====
section
/-!
SUPPORT. Runs of the sequencer between a command's acceptance and its response: the seeding loop (44_sequencer.md rule R275),
a regeneration (rule R277) and a draw (rule R276), each as a number of edges and the state it ends in.
-/

namespace Sys2Proof.Machine

/-- `Busy n s t`: in `n` edges without reset, whatever the other pins, the sequencer goes from `s` to `t`, and every state
before `t` is neither IDLE nor RESP. -/
inductive Busy : Nat → State → State → Prop where
  /-- No edge. -/
  | done (s : State) : Busy 0 s s
  /-- One edge more, at the front. -/
  | front {n : Nat} {s t u : State} (hi : s.fsm ≠ .idle) (hr : s.fsm ≠ .resp)
      (he : ∀ p : Pins, p.rst = false → edge p s = .next t) (h : Busy n t u) : Busy (n + 1) s u

/-- Runs put together. -/
theorem Busy.trans {n m : Nat} {s t u : State} (h : Busy n s t) (h' : Busy m t u) : Busy (n + m) s u := by
  induction h with
  | done => simpa using h'
  | front hi hr he _ ih => rw [Nat.add_right_comm]; exact .front hi hr he (ih h')

/-- One edge more, at the end. -/
theorem Busy.back {n : Nat} {s t u : State} (h : Busy n s t) (hi : t.fsm ≠ .idle) (hr : t.fsm ≠ .resp)
    (he : ∀ p : Pins, p.rst = false → edge p t = .next u) : Busy (n + 1) s u := h.trans (.front hi hr he (.done u))

/-- The edges of a run. -/
theorem Busy.edges {n : Nat} {s t : State} (h : Busy n s t) :
    ∀ ps : List Pins, ps.length ≤ n → (∀ q ∈ ps, q.rst = false) → ∃ u, edges ps s = .next u ∧
      (ps.length = n → u = t) ∧ (ps.length < n → u.fsm ≠ .idle ∧ u.fsm ≠ .resp) := by
  induction h with
  | done s =>
    intro ps hl _
    obtain rfl : ps = [] := List.length_eq_zero_iff.mp (by omega)
    exact ⟨s, rfl, fun _ => rfl, fun h => absurd h (by simp)⟩
  | @front n s t u hi hr he _ ih =>
    intro ps hl hq
    cases ps with
    | nil => exact ⟨s, rfl, fun h => absurd h (by simp), fun _ => ⟨hi, hr⟩⟩
    | cons p ps =>
      obtain ⟨v, h1, h2, h3⟩ := ih ps (by simpa using hl) (fun q hm => hq q (List.mem_cons_of_mem p hm))
      refine ⟨v, ?_, fun h => h2 (by simpa using h), fun h => h3 (by simpa using h)⟩
      rw [Machine.edges, he p (hq p List.mem_cons_self)]
      exact h1

/-- A 10-bit register holding a number that fits. -/
theorem idx_ofNat {k : Nat} (h : k ≤ 624) : (BitVec.ofNat 10 k).toNat = k := by
  rw [BitVec.toNat_ofNat, Nat.mod_eq_of_lt (by omega)]

/-- The sequencer after `k` steps of the seeding loop of a SEED accepted in `s` (44_sequencer.md R275). -/
def seedingAt (arg : Word) (s : State) (k : Nat) : State :=
  { latch opSeed arg s with
    mt := seedTo arg s.mt k
    idx := 624#10
    seeded := false
    cnt := BitVec.ofNat 10 (k + 1)
    prev := readWord (seedTo arg s.mt k) k
    fsm := .seed }

@[simp] theorem seedingAt_wasReset (arg : Word) (s : State) (k : Nat) : (seedingAt arg s k).wasReset = s.wasReset := rfl
@[simp] theorem seedingAt_fsm (arg : Word) (s : State) (k : Nat) : (seedingAt arg s k).fsm = .seed := rfl
@[simp] theorem seedingAt_cnt (arg : Word) (s : State) (k : Nat) : (seedingAt arg s k).cnt = BitVec.ofNat 10 (k + 1) := rfl

/-- The chain's next word, once written, makes the chain one step longer. -/
theorem seedTo_succ (arg : Word) (mt : StateVec) {k n : Nat} (h : n = k + 1) :
    writeWord (seedTo arg mt k) n (initStep (readWord (seedTo arg mt k) k) n) = seedTo arg mt n := by subst h; rfl

/-- One step of the seeding loop. -/
theorem seedingAt_edge (arg : Word) {s : State} (hw : s.wasReset = true) {k : Nat} (hk : k < 622) {p : Pins}
    (hp : p.rst = false) : edge p (seedingAt arg s k) = .next (seedingAt arg s (k + 1)) := by
  rw [edge_of_run hp (s := seedingAt arg s k) (by simpa using hw), runEdge_seed p (by simp), seedEdge]
  have hc : (seedingAt arg s k).cnt.toNat = k + 1 := by simp; omega
  rw [if_neg (by omega), if_neg (by omega), hc]
  have hv : readWord (seedTo arg s.mt (k + 1)) (k + 1) = initStep (readWord (seedTo arg s.mt k) k) (k + 1) :=
    readWord_writeWord_same _ _ _
  have hn : BitVec.ofNat 10 (k + 1) + 1#10 = BitVec.ofNat 10 (k + 1 + 1) := (BitVec.ofNat_add (k + 1) 1).symm
  simp only [seedingAt, latch, seedTo_succ _ _ rfl, hv, hn]

/-- The last step of the seeding loop: the response, in the state SEED's transaction leaves. -/
theorem seedingAt_last (arg : Word) {s : State} (hw : s.wasReset = true) {p : Pins} (hp : p.rst = false) :
    edge p (seedingAt arg s 622) = .next (afterSeed arg s) := by
  rw [edge_of_run hp (s := seedingAt arg s 622) (by simpa using hw), runEdge_seed p (by simp), seedEdge]
  have hc : (seedingAt arg s 622).cnt.toNat = 623 := by simp
  rw [if_neg (by omega), if_pos hc, hc, afterSeed, ← seedVec_batch arg s.mt, seedVec_eq]
  have hm := seedTo_succ arg s.mt (k := 622) (n := 623) (by decide)
  have hr : readWord (seedTo arg s.mt 623) 623 = initStep (readWord (seedTo arg s.mt 622) 622) 623 := by
    rw [← hm]; exact readWord_writeWord_same _ _ _
  simp only [seedingAt, latch, respond, hm, hr]

/-- The seeding loop: 623 edges after the one that accepts SEED (44_sequencer.md R275, R284). -/
theorem seed_runs (arg : Word) {s : State} (hw : s.wasReset = true) : Busy 623 (seedingAt arg s 0) (afterSeed arg s) := by
  have h : ∀ k, k ≤ 622 → Busy k (seedingAt arg s 0) (seedingAt arg s k) := by
    intro k
    induction k with
    | zero => exact fun _ => .done _
    | succ k ih =>
      exact fun hk => (ih (by omega)).back (by simp) (by simp) fun _ hp => seedingAt_edge arg hw (by omega) hp
  exact (h 622 (Nat.le_refl _)).back (by simp) (by simp) fun _ hp => seedingAt_last arg hw hp

/-- The sequencer after `k` steps of a regeneration that starts in `s` (44_sequencer.md R277). -/
def twistingAt (s : State) (k : Nat) : State := { s with mt := twistTo s.mt k, cnt := BitVec.ofNat 10 k, fsm := .twist }

@[simp] theorem twistingAt_wasReset (s : State) (k : Nat) : (twistingAt s k).wasReset = s.wasReset := rfl
@[simp] theorem twistingAt_fsm (s : State) (k : Nat) : (twistingAt s k).fsm = .twist := rfl
@[simp] theorem twistingAt_cnt (s : State) (k : Nat) : (twistingAt s k).cnt = BitVec.ofNat 10 k := rfl

/-- The twist's next step makes the twist one step longer. -/
theorem twistTo_succ (mt : StateVec) {k n : Nat} (h : n = k + 1) : twistStep (twistTo mt k) k = twistTo mt n := by
  subst h; rfl

/-- One step of a regeneration. -/
theorem twistingAt_edge {s : State} (hw : s.wasReset = true) {k : Nat} (hk : k < 623) {p : Pins} (hp : p.rst = false) :
    edge p (twistingAt s k) = .next (twistingAt s (k + 1)) := by
  rw [edge_of_run hp (s := twistingAt s k) (by simpa using hw), runEdge_twist p (by simp), twistEdge]
  have hc : (twistingAt s k).cnt.toNat = k := by simp; omega
  rw [if_neg (by omega), if_neg (by omega), hc]
  have hn : BitVec.ofNat 10 k + 1#10 = BitVec.ofNat 10 (k + 1) := (BitVec.ofNat_add k 1).symm
  simp only [twistingAt, twistTo_succ _ rfl, hn]

/-- The last step of a regeneration: back to DRAW, regenerated. -/
theorem twistingAt_last {s : State} (hw : s.wasReset = true) {p : Pins} (hp : p.rst = false) :
    edge p (twistingAt s 623) = .next { regen s with fsm := .draw } := by
  rw [edge_of_run hp (s := twistingAt s 623) (by simpa using hw), runEdge_twist p (by simp), twistEdge]
  have hc : (twistingAt s 623).cnt.toNat = 623 := by simp
  rw [if_neg (by omega), if_pos hc, hc, regen, twistAll_eq]
  have hm := twistTo_succ s.mt (k := 623) (n := 624) (by decide)
  simp only [hm, twistingAt]

/-- A regeneration: the edge in DRAW that finds the engine exhausted, then 624 edges in TWIST (44_sequencer.md R276, R277). -/
theorem regen_runs {s : State} (hw : s.wasReset = true) (hf : s.fsm = .draw) (hx : 624 ≤ s.idx.toNat) :
    Busy 625 s { regen s with fsm := .draw } := by
  have h : ∀ k, k ≤ 623 → Busy k (twistingAt s 0) (twistingAt s k) := by
    intro k
    induction k with
    | zero => exact fun _ => .done _
    | succ k ih =>
      exact fun hk => (ih (by omega)).back (by simp) (by simp) fun _ hp => twistingAt_edge hw (by omega) hp
  have h0 : ∀ p : Pins, p.rst = false → edge p s = .next (twistingAt s 0) := fun p hp => by
    rw [edge_of_run hp hw, runEdge_draw p hf, drawEdge, (exhausted_iff s).mpr hx]; rfl
  exact .front (by simp [hf]) (by simp [hf]) h0
    ((h 623 (Nat.le_refl _)).back (by simp) (by simp) fun _ hp => twistingAt_last hw hp)

/-- A whole draw, from DRAW to POST: one edge, and 625 more when it regenerates (42_draw.md R204). -/
theorem draw_runs {s : State} (hw : s.wasReset = true) (hf : s.fsm = .draw) :
    Busy ((if exhausted s then 625 else 0) + 1) s { draw s with fsm := .post } := by
  have one : ∀ t : State, t.wasReset = true → t.fsm = .draw → t.idx.toNat < 624 →
      Busy 1 t { takeWord t with fsm := .post } := fun t hw hf hx =>
    .front (by simp [hf]) (by simp [hf])
      (fun p hp => by rw [edge_of_run hp hw, runEdge_draw p hf, drawEdge, (not_exhausted_iff t).mpr hx]; rfl) (.done _)
  rcases Nat.lt_or_ge s.idx.toNat 624 with hx | hx
  · rw [(not_exhausted_iff s).mpr hx, draw_of_lt hx]
    exact one s hw hf hx
  · rw [(exhausted_iff s).mpr hx, draw_of_ge hx]
    exact (regen_runs hw hf hx).trans (one { regen s with fsm := .draw } hw rfl (by simp))

end Sys2Proof.Machine
end

