-- ==== Sys2Proof/Laws/Edges.lean ====
section
/-!
SUPPORT. Everything one rising edge can do when it gives a next state, said once (44_sequencer.md rules R274 to R279, R287;
70_reset_and_hazards.md rule R350): one constructor per row of the sequencer's tables.
-/

namespace Sys2Proof.Machine

/-- `EdgeTo p s t`: which row of the sequencer's tables takes `s` to `t` at an edge with pins `p`. -/
inductive EdgeTo (p : Pins) (s t : State) : Prop where
  /-- Reset. -/
  | reset (hr : p.rst = true) (ht : t = resetEdge s)
  /-- IDLE, no command. -/
  | wait (hr : p.rst = false) (hw : s.wasReset = true) (hf : s.fsm = .idle) (hv : p.cmdValid = false) (ht : t = s)
  /-- IDLE, a command that fails its checks. -/
  | error (e : Status) (hr : p.rst = false) (hw : s.wasReset = true) (hf : s.fsm = .idle) (hv : p.cmdValid = true)
      (ho : p.cmdOp ≠ opSeed) (he : commandError p.cmdOp p.cmdArg s.seeded = some e)
      (ht : t = raise e (latch p.cmdOp p.cmdArg s))
  /-- IDLE, SEED. -/
  | seed (hr : p.rst = false) (hw : s.wasReset = true) (hf : s.fsm = .idle) (hv : p.cmdValid = true)
      (ho : p.cmdOp = opSeed) (ht : t = seedingAt p.cmdArg s 0)
  /-- IDLE, a draw command that passes its checks. -/
  | accept (hr : p.rst = false) (hw : s.wasReset = true) (hf : s.fsm = .idle) (hv : p.cmdValid = true)
      (ho : drawCommand p.cmdOp p.cmdArg = true) (hs : s.seeded = true)
      (ht : t = { latch p.cmdOp p.cmdArg s with fsm := .draw })
  /-- SEED, not the last word. -/
  | seeding (hr : p.rst = false) (hw : s.wasReset = true) (hf : s.fsm = .seed) (hc : s.cnt.toNat < 623)
      (ht : t = { s with
        mt := writeWord s.mt s.cnt.toNat (initStep s.prev s.cnt.toNat)
        prev := initStep s.prev s.cnt.toNat
        cnt := s.cnt + 1#10 })
  /-- SEED, the last word. -/
  | seedDone (hr : p.rst = false) (hw : s.wasReset = true) (hf : s.fsm = .seed) (hc : s.cnt.toNat = 623)
      (ht : t = respond .ok 0#32 { s with
        mt := writeWord s.mt 623 (initStep s.prev 623)
        prev := initStep s.prev 623
        seeded := true })
  /-- DRAW, exhausted. -/
  | exhaust (hr : p.rst = false) (hw : s.wasReset = true) (hf : s.fsm = .draw) (hx : 624 ≤ s.idx.toNat)
      (ht : t = { s with cnt := 0#10, fsm := .twist })
  /-- DRAW, a word left. -/
  | take (hr : p.rst = false) (hw : s.wasReset = true) (hf : s.fsm = .draw) (hx : s.idx.toNat < 624)
      (ht : t = { takeWord s with fsm := .post })
  /-- TWIST, not the last word. -/
  | twisting (hr : p.rst = false) (hw : s.wasReset = true) (hf : s.fsm = .twist) (hc : s.cnt.toNat < 623)
      (ht : t = { s with mt := twistStep s.mt s.cnt.toNat, cnt := s.cnt + 1#10 })
  /-- TWIST, the last word. -/
  | twistDone (hr : p.rst = false) (hw : s.wasReset = true) (hf : s.fsm = .twist) (hc : s.cnt.toNat = 623)
      (ht : t = { s with mt := twistStep s.mt 623, idx := 0#10, fsm := .draw })
  /-- POST, a result. -/
  | result (d : Word) (hr : p.rst = false) (hw : s.wasReset = true) (hf : s.fsm = .post)
      (ho : s.opR = opWord ∧ d = s.yR ∨ s.opR = opBool ∧ d = zext32 (bitOf s.yR 31) ∨
        s.opR = opBounded ∧ badBound s.argR = false ∧
          ((∃ k, s.argR.toNat = 2 ^ k) ∧ d = BitVec.ofNat 32 (caseA s.argR.toNat (bitsOf s.yR)) ∨
            (¬∃ k, s.argR.toNat = 2 ^ k) ∧ accepts s.argR.toNat (bitsOf s.yR) = true ∧
              d = BitVec.ofNat 32 (caseB s.argR.toNat (bitsOf s.yR))))
      (ht : t = respond .ok d s)
  /-- POST, BOUNDED rejects. -/
  | reject (hr : p.rst = false) (hw : s.wasReset = true) (hf : s.fsm = .post) (ho : s.opR = opBounded)
      (hb : badBound s.argR = false) (hk : ¬∃ k, s.argR.toNat = 2 ^ k)
      (hx : accepts s.argR.toNat (bitsOf s.yR) = false) (ht : t = { s with fsm := .draw })
  /-- RESP, the response is not taken. -/
  | hold (hr : p.rst = false) (hw : s.wasReset = true) (hf : s.fsm = .resp) (hv : p.rspReady = false) (ht : t = s)
  /-- RESP, the response is taken. -/
  | taken (hr : p.rst = false) (hw : s.wasReset = true) (hf : s.fsm = .resp) (hv : p.rspReady = true)
      (ht : t = { s with fsm := .idle })
  /-- An unused encoding. -/
  | upset (hr : p.rst = false) (hw : s.wasReset = true) (hf : s.fsm = .unused6 ∨ s.fsm = .unused7)
      (ht : t = { s with fsm := .idle, seeded := false })

/-- Accepting SEED starts the seeding loop. -/
theorem acceptEdge_seed (arg : Word) (s : State) : acceptEdge opSeed arg s = seedingAt arg s 0 := by
  have h : readWord (seedTo arg s.mt 0) 0 = arg := readWord_writeWord_same _ _ _
  simp only [seedingAt, h, acceptEdge]
  rfl

/-- Accepting a command that fails its checks. -/
theorem acceptEdge_error {op : Opcode} {arg : Word} {s : State} {e : Status}
    (h : commandError op arg s.seeded = some e) : acceptEdge op arg s = raise e (latch op arg s) := by
  simp [acceptEdge, h]

/-- Accepting a draw command that passes its checks. -/
theorem acceptEdge_draw {op : Opcode} {arg : Word} {s : State} (h : commandError op arg s.seeded = none)
    (ho : op ≠ opSeed) : acceptEdge op arg s = { latch op arg s with fsm := .draw } := by
  simp [acceptEdge, h, ho]

/-- A command that is not SEED and passes its checks is a draw command on a seeded block. -/
theorem commandError_none {op : Opcode} {arg : Word} {b : Bool} (h : commandError op arg b = none) (ho : op ≠ opSeed) :
    drawCommand op arg = true ∧ b = true := by
  rcases commandError_cases op arg b with ⟨_, hc⟩ | ⟨h', -⟩ | ⟨h', hc⟩ | ⟨_, _, hc⟩ | ⟨h', hb, hc⟩
  · rw [h] at hc; cases hc
  · exact absurd h' ho
  · cases b
    · rw [h] at hc; cases hc
    · rcases h' with rfl | rfl <;> exact ⟨rfl, rfl⟩
  · rw [h] at hc; cases hc
  · cases b
    · rw [h] at hc; cases hc
    · subst h'; exact ⟨by simp [drawCommand, hb], rfl⟩

/-- The edge in IDLE. -/
theorem edgeTo_idle {p : Pins} {s : State} (hr : p.rst = false) (hw : s.wasReset = true) (hf : s.fsm = .idle) :
    EdgeTo p s (idleEdge p s) := by
  cases hv : p.cmdValid with
  | false => exact .wait hr hw hf hv (by simp [idleEdge, hv])
  | true =>
    rw [idleEdge, if_pos hv]
    by_cases ho : p.cmdOp = opSeed
    · exact .seed hr hw hf hv ho (by rw [ho, acceptEdge_seed])
    · cases hc : commandError p.cmdOp p.cmdArg s.seeded with
      | some e => exact .error e hr hw hf hv ho hc (acceptEdge_error hc)
      | none =>
        obtain ⟨hd, hs⟩ := commandError_none hc ho
        exact .accept hr hw hf hv hd hs (acceptEdge_draw hc ho)

/-- The edge in POST. -/
theorem edgeTo_post {p : Pins} {s t : State} (hr : p.rst = false) (hw : s.wasReset = true) (hf : s.fsm = .post)
    (h : postEdge s = .next t) : EdgeTo p s t := by
  by_cases h1 : s.opR = opWord
  · rw [postEdge_word h1] at h; cases h
    exact .result _ hr hw hf (.inl ⟨h1, rfl⟩) rfl
  by_cases h2 : s.opR = opBool
  · rw [postEdge_bool h2] at h; cases h
    exact .result _ hr hw hf (.inr (.inl ⟨h2, rfl⟩)) rfl
  by_cases h3 : s.opR = opBounded ∧ badBound s.argR = false
  · obtain ⟨h3, hb⟩ := h3
    by_cases hk : ∃ k, s.argR.toNat = 2 ^ k
    · rw [postEdge_caseA h3 rfl hb hk] at h; cases h
      exact .result _ hr hw hf (.inr (.inr ⟨h3, hb, .inl ⟨hk, rfl⟩⟩)) rfl
    · rw [postEdge_caseB h3 rfl hb hk] at h; cases h
      cases hx : accepts s.argR.toNat (bitsOf s.yR) with
      | true => exact .result _ hr hw hf (.inr (.inr ⟨h3, hb, .inr ⟨hk, hx, rfl⟩⟩)) rfl
      | false => exact .reject hr hw hf h3 hb hk hx rfl
  · rw [postEdge, if_neg h1, if_neg h2, if_neg h3] at h; cases h

/-- The inversion of `edge`. -/
theorem edgeTo_of_edge {p : Pins} {s t : State} (h : edge p s = .next t) : EdgeTo p s t := by
  cases hr : p.rst with
  | true => rw [edge_of_rst hr] at h; cases h; exact .reset hr rfl
  | false =>
    cases hw : s.wasReset with
    | false => rw [edge_refused hr hw] at h; cases h
    | true =>
      rw [edge_of_run hr hw] at h
      cases hf : s.fsm with
      | idle => rw [runEdge_idle p hf] at h; cases h; exact edgeTo_idle hr hw hf
      | seed =>
        rw [runEdge_seed p hf, seedEdge] at h
        split at h
        · cases h
        · split at h
          · next hc => cases h; exact .seedDone hr hw hf hc (by rw [hc])
          · cases h; exact .seeding hr hw hf (by omega) rfl
      | draw =>
        rw [runEdge_draw p hf, drawEdge] at h
        cases hx : exhausted s with
        | true => rw [hx] at h; cases h; exact .exhaust hr hw hf ((exhausted_iff s).mp hx) rfl
        | false => rw [hx] at h; cases h; exact .take hr hw hf ((not_exhausted_iff s).mp hx) rfl
      | twist =>
        rw [runEdge_twist p hf, twistEdge] at h
        split at h
        · cases h
        · split at h
          · next hc => cases h; exact .twistDone hr hw hf hc (by rw [hc])
          · cases h; exact .twisting hr hw hf (by omega) rfl
      | post => rw [runEdge_post p hf] at h; exact edgeTo_post hr hw hf h
      | resp =>
        rw [runEdge_resp p hf, respEdge] at h
        cases hv : p.rspReady with
        | true => rw [hv] at h; cases h; exact .taken hr hw hf hv rfl
        | false => rw [hv] at h; cases h; exact .hold hr hw hf hv rfl
      | unused6 => rw [runEdge_unused p (.inl hf)] at h; cases h; exact .upset hr hw (.inl hf) rfl
      | unused7 => rw [runEdge_unused p (.inr hf)] at h; cases h; exact .upset hr hw (.inr hf) rfl

end Sys2Proof.Machine
end

