-- ==== Sys2Proof/Laws/PerInstr.lean ====
section
/-!
SUPPORT. The family of statements made per command: the fields of its word (30_encoding.md rules R102, R104).
-/

/-- The word of a command carries its opcode, which is not reserved, and its argument. -/
def Sys2Proof.Laws.WordFields.Statement (i : Sys2Proof.Instr) : Prop :=
  Sys2Proof.Command.op (Sys2Proof.encode i) = Sys2Proof.opcodeOf i ∧
    Sys2Proof.Command.arg (Sys2Proof.encode i) = Sys2Proof.argumentOf i ∧
    Sys2Proof.reservedOp (Sys2Proof.opcodeOf i) = false

/-- A command word as a number (R103). -/
theorem Sys2Proof.Command.make_toNat (op : Sys2Proof.Opcode) (arg : Sys2Proof.Word) :
    BitVec.toNat (Sys2Proof.Command.make op arg) = op.toNat * 4294967296 + arg.toNat := by
  have h1 := op.isLt
  have h2 := arg.isLt
  rw [Sys2Proof.Command.make, BitVec.toNat_ofNat, Nat.mod_eq_of_lt]
  omega

/-- The opcode field of a word is what it was made of. -/
theorem Sys2Proof.Command.op_make (op : Sys2Proof.Opcode) (arg : Sys2Proof.Word) :
    Sys2Proof.Command.op (Sys2Proof.Command.make op arg) = op := by
  apply BitVec.eq_of_toNat_eq
  have h1 := op.isLt
  have h2 := arg.isLt
  rw [Sys2Proof.Command.op, BitVec.extractLsb'_toNat, Sys2Proof.Command.make_toNat, Nat.shiftRight_eq_div_pow]
  generalize op.toNat = x at *
  generalize arg.toNat = y at *
  omega

/-- The argument field of a word is what it was made of. -/
theorem Sys2Proof.Command.arg_make (op : Sys2Proof.Opcode) (arg : Sys2Proof.Word) :
    Sys2Proof.Command.arg (Sys2Proof.Command.make op arg) = arg := by
  apply BitVec.eq_of_toNat_eq
  have h1 := op.isLt
  have h2 := arg.isLt
  rw [Sys2Proof.Command.arg, BitVec.extractLsb'_toNat, Sys2Proof.Command.make_toNat, Nat.shiftRight_eq_div_pow]
  generalize op.toNat = x at *
  generalize arg.toNat = y at *
  omega

/-- A command word is made of its two fields. -/
theorem Sys2Proof.Command.make_fields (cw : Sys2Proof.Command) :
    Sys2Proof.Command.make (Sys2Proof.Command.op cw) (Sys2Proof.Command.arg cw) = cw := by
  apply BitVec.eq_of_toNat_eq
  have h := cw.isLt
  rw [Sys2Proof.Command.make_toNat, Sys2Proof.Command.op, Sys2Proof.Command.arg, BitVec.extractLsb'_toNat,
    BitVec.extractLsb'_toNat, Nat.shiftRight_eq_div_pow, Nat.shiftRight_eq_div_pow]
  generalize BitVec.toNat cw = x at *
  omega

theorem Sys2Proof.Laws.WordFields.seed (arg : Sys2Proof.Word) : Sys2Proof.Laws.WordFields.Statement (.seed arg) :=
  ⟨Sys2Proof.Command.op_make _ _, Sys2Proof.Command.arg_make _ _, rfl⟩

theorem Sys2Proof.Laws.WordFields.word (x : Sys2Proof.Word) : Sys2Proof.Laws.WordFields.Statement (.word x) :=
  ⟨Sys2Proof.Command.op_make _ _, Sys2Proof.Command.arg_make _ _, rfl⟩

theorem Sys2Proof.Laws.WordFields.bool (x : Sys2Proof.Word) : Sys2Proof.Laws.WordFields.Statement (.bool x) :=
  ⟨Sys2Proof.Command.op_make _ _, Sys2Proof.Command.arg_make _ _, rfl⟩

theorem Sys2Proof.Laws.WordFields.bounded (n : Sys2Proof.Word) : Sys2Proof.Laws.WordFields.Statement (.bounded n) :=
  ⟨Sys2Proof.Command.op_make _ _, Sys2Proof.Command.arg_make _ _, rfl⟩
end

