-- ==== Sys2Proof/Tests/Slice0.lean ====
section
/-!
SUPPORT. The model's own tests: the well-formedness checks, command words written out from the spec's encoding, the spec's
vectors on single steps of small states, and for every statement with hypotheses a witness that meets them.
-/

namespace Sys2Proof.Tests

open Sys2Proof Sys2Proof.Machine

/-! ### Helpers -/

/-- The next state of an outcome, if it has one. -/
def nextOf (o : Host.Outcome State Fault Refusal) : Option State :=
  match o with
  | .next t => some t
  | .fault _ => none
  | .refused _ => none

/-- The response after an outcome, if a next state presents one. -/
def answerOf (o : Host.Outcome State Fault Refusal) : Option (Status × Word) := (nextOf o).bind response

/-- A seeded block with the cursor at 0 and the word 0x9b0afa27 there, zeros behind it. -/
def ready : State := { State.reset with mt := writeWord State.reset.mt 0 0x9b0afa27#32, idx := 0#10, seeded := true }

/-- The same with the cursor elsewhere. -/
def readyAt (i : Nat) : State := { ready with idx := BitVec.ofNat 10 i }

/-- A block in a state of the sequencer, with a loop counter. -/
def busy (f : Fsm) (c : Nat) : State := { ready with fsm := f, cnt := BitVec.ofNat 10 c }

/-- A block in POST after drawing the first word for WORD. -/
def posting : State :=
  { readyAt 1 with fsm := .post, opR := opWord, yR := temper (readWord ready.mt 0) }

/-- A block with no reset since power-up. -/
def cold (ps : List Pins) : State := { State.reset with wasReset := false, host := ps }

/-! ### Well-formedness: each check refuses an ill-formed line (30_encoding.md R113, R114) -/

theorem test_wf_bounded_high : (Asm.bounded 2147483648).wellFormed = false := by decide
theorem test_wf_bounded_low : (Asm.bounded (-2147483649)).wellFormed = false := by decide
theorem test_wf_bounded_edges : (Asm.bounded 2147483647).wellFormed = true ∧ (Asm.bounded (-2147483648)).wellFormed = true := by
  decide
theorem test_wf_raw_op : (Asm.raw 8 0).wellFormed = false ∧ (Asm.raw (-1) 0).wellFormed = false := by decide
theorem test_wf_raw_arg : (Asm.raw 0 4294967296).wellFormed = false := by decide
theorem test_wf_seed_any : (Asm.seed (-987654321987654321)).wellFormed = true := by decide
theorem test_wf_instr : (Instr.bounded 0x80000000#32).wellFormed = true := by decide

/-! ### Decoding: words written out bit by bit, op in bits 34..32, arg in bits 31..0 (R102, R104, R116) -/

theorem test_decode_seed : decode 0b00100000000000000000001010101110001#35 = .ok (.seed 5489#32) := by decide
theorem test_decode_word : decode 0b01000000000000000000000000000000000#35 = .ok (.word 0#32) := by decide
theorem test_decode_bool : decode 0b01111111111111111111111111111111111#35 = .ok (.bool 0xffffffff#32) := by decide
theorem test_decode_bounded : decode 0b10011111111111111111111111111111011#35 = .ok (.bounded 0xfffffffb#32) := by decide
theorem test_decode_reserved :
    decode 0b00000000000000000000000000000000001#35 = .error (.illegalOp 0b000#3) ∧
    decode 0b10100000000000000000000000000000000#35 = .error (.illegalOp 0b101#3) ∧
    decode 0b11000000000000000000000000000000000#35 = .error (.illegalOp 0b110#3) ∧
    decode 0b11100000000000000000000000000000000#35 = .error (.illegalOp 0b111#3) := by decide
theorem test_encode_words : encode (.seed 0xffffffff#32) = 0x1ffffffff#35 ∧ encode (.word 0#32) = 0x200000000#35 ∧
    encode (.bool 0#32) = 0x300000000#35 ∧ encode (.bounded 1024#32) = 0x400000400#35 := by decide
theorem test_table_word : decodeTableWord 35 0x400000006 = some (.bounded 6#32) ∧ decodeTableWord 40 0x800000000 = none ∧
    decodeTableWord 35 0x500000000 = none := by decide

/-! ### The assembler (R103, R113 to R115) -/

theorem test_line_seed : assembleLine 0 ['s', 'e', 'e', 'd', ' ', '5', '4', '8', '9', ' ', ';', 'x'] =
    .ok (some 0x100001571#35) := by decide
theorem test_line_raw : assembleLine 0 ['.', 'c', 'm', 'd', ' ', '5', ',', ' ', '0'] = .ok (some 0x500000000#35) := by decide
theorem test_line_bounded : assembleLine 0 ['B', 'O', 'U', 'N', 'D', 'E', 'D', ' ', '-', '5'] =
    .ok (some 0x4fffffffb#35) := by decide
theorem test_line_blank : assembleLine 0 [' ', ';', 'S', 'E', 'E', 'D'] = .ok none := by decide
theorem test_line_error : assembleLine 0 ['W', 'O', 'R', 'D', ' ', '1'] = .error .badLine := by decide
theorem test_spelling : spellCommand 0x100001571#35 = ['0', 'x', '1', '0', '0', '0', '0', '1', '5', '7', '1'] := by decide
theorem test_disassembly : disassembleText 0x4fffffffb#35 = ['B', 'O', 'U', 'N', 'D', 'E', 'D', ' ', '-', '5'] ∧
    disassembleText 0x500000010#35 = ['.', 'c', 'm', 'd', ' ', '5', ',', ' ', '0', 'x', '1', '0'] := by decide
theorem test_seed_default : assemble 4294967301 .seedDefault = .ok 0x100000005#35 := by decide

/-! ### The commands (40_seed.md, 42_draw.md and 43_bounded.md worked examples; 95_test_vectors.md) -/

/-- The words of the seeding chain one by one, which the kernel evaluates faster than the vector. -/
def chain (seed : Word) : Nat → Word
  | 0 => seed
  | k + 1 => initStep (chain seed k) (k + 1)

theorem readWord_batch (seed : Word) (i : Nat) (h : i < 624) : readWord (batch seed 0) i = chain seed i := by
  rw [batch, seedVec_eq]
  induction i with
  | zero => rw [readWord_seedTo_zero _ _ (by omega), chain]
  | succ i ih => rw [readWord_seedTo_succ _ _ (by omega) (by omega), ih (by omega), chain]

/-- V-S2: SEED 5489. -/
theorem test_seed : (nextOf (exec (.seed 5489#32) ready)).map (fun t =>
    (readWord t.mt 1, readWord t.mt 623, t.idx, t.seeded)) = some (1301868182#32, 79981964#32, 624#10, true) := by
  have h1 : chain 5489#32 1 = 1301868182#32 := by decide +kernel
  have h2 : chain 5489#32 623 = 79981964#32 := by decide +kernel
  rw [exec_seed, ← h1, ← h2, ← readWord_batch _ 1 (by decide), ← readWord_batch _ 623 (by decide)]
  rfl
theorem test_seed_answer : answerOf (exec (.seed 0xffffffff#32) State.reset) = some (.ok, 0#32) := by decide +kernel

/-- V-M1: the word 0x9b0afa27 tempered is 3499211612. -/
theorem test_word : answerOf (exec (.word 5#32) ready) = some (.ok, 3499211612#32) := by decide +kernel
/-- An exhausted block regenerates: new word 0 is the twist of 0x9b0afa27, 0 and 0, `twistWord(0x80000000, 0, 0)`. -/
theorem test_word_regenerates : (nextOf (exec (.word 0#32) (readyAt 1023))).map (fun t => (readWord t.mt 0, t.idx)) =
    some (0x40000000#32, 1#10) := by decide +kernel

/-- V-B1: the word 3499211612 gives true. -/
theorem test_bool : answerOf (exec (.bool 0#32) ready) = some (.ok, 1#32) := by decide +kernel
theorem test_bool_unseeded : answerOf (exec (.bool 0#32) State.reset) = some (.notSeeded, 0#32) := by decide

/-- Case A: the top 10 bits of 0xd091bb5c plus 1. -/
theorem test_bounded_power : answerOf (exec (.bounded 1024#32) ready) = some (.ok, 835#32) := by decide +kernel
/-- Case B for `n = 2^30 + 1`: 0xd091bb5c is rejected (its `bits` is above `2^30`), the next word, 0, is accepted. -/
theorem test_bounded_rejects : (nextOf (.next (rejectionLoop 1073741825 2 ready))).map (fun t => (response t, t.idx)) =
    some (some (.ok, 1#32), 2#10) := by decide +kernel

/-- R314: INVALID_ARGUMENT before NOT_SEEDED; ILLEGAL_OP before both. -/
theorem test_error_priority : answerOf (transact opBounded 0xfffffffb#32 State.reset) = some (.invalidArgument, 0#32) ∧
    answerOf (transact 0b111#3 0xfffffffb#32 State.reset) = some (.illegalOp, 0#32) := by decide

/-! ### The sequencer, reset and the step -/

/-- R274: an accepted SEED at the cycle level writes word 0 and clears the flag. -/
theorem test_accept_seed : (nextOf (edge (offerPins opSeed 7#32) ready)).map (fun t =>
    (t.fsm, readWord t.mt 0, t.seeded, t.idx, t.cnt)) = some (.seed, 7#32, false, 624#10, 1#10) := by decide +kernel
/-- R277: the last twist step. -/
theorem test_twist_last : (nextOf (edge quietPins (busy .twist 623))).map (fun t => (t.fsm, t.idx)) =
    some (.draw, 0#10) := by decide +kernel
/-- R279: the response is taken. -/
theorem test_take : (nextOf (edge takePins { ready with fsm := .resp })).map (fun t => t.fsm) = some .idle := by decide
/-- R350: reset overrides. -/
theorem test_reset : (nextOf (edge resetPins (busy .twist 5))).map (fun t => (t.fsm, t.seeded, t.idx)) =
    some (.idle, false, 624#10) := by decide
/-- R355, log 5. -/
theorem test_cold : step (cold []) = .refused .beforeFirstReset := rfl
/-- R105: a step that accepts a reserved opcode answers ILLEGAL_OP. -/
theorem test_step_reserved : answerOf (step { ready with host := [offerPins 0b101#3 0#32] }) = some (.illegalOp, 0#32) := by
  decide

/-- The first command after reset: WORD is NOT_SEEDED. -/
theorem test_first_step : answerOf (step (State.reset.withFetchWord 35 0x200000000)) = some (.notSeeded, 0#32) := by decide
/-- The unreachable stops (log 9). -/
theorem test_no_word : edge quietPins (busy .twist 624) = .fault .noWord := rfl
theorem test_no_post_row : edge quietPins (busy .post 0) = .fault .noPostRow := rfl

/-! ### Witnesses: for each statement with hypotheses, values that meet them, at the boundaries of its clauses -/

theorem ready_drawn : drawnAt ready 0 = 3499211612#32 := by decide +kernel

/-- 3 and 2^30 + 1 are no powers of two. -/
theorem three_not_power : ¬∃ k, (3#32).toNat = 2 ^ k := fun h => absurd ((isPow2_iff (by decide)).mpr h) (by decide)
theorem odd_not_power : ¬∃ k, (1073741825#32).toNat = 2 ^ k :=
  fun h => absurd ((isPow2_iff (by decide)).mpr h) (by decide)

/-- For 3 the first word of `ready` is accepted; for 2^30 + 1 the second. -/
theorem ready_accepts : FirstAccepted (3#32).toNat 0 ready :=
  ⟨fun i hi => absurd hi (Nat.not_lt_zero i), by decide +kernel⟩
theorem ready_rejects : FirstAccepted (1073741825#32).toNat 1 ready :=
  ⟨fun i hi => by obtain rfl : i = 0 := by omega
                  decide +kernel, by decide +kernel⟩

theorem witness_EncodeDecodeRoundTrip : Instr.wellFormed (.bounded 0x80000000#32) = true ∧
    decode 0x2ffffffff#35 = .ok (.word 0xffffffff#32) ∧ decode 0x7ffffffff#35 = .error (.illegalOp 0b111#3) := by decide

theorem witness_AssemblerOperandRanges : (-2147483648 ≤ (-2147483648 : Int) ∧ (-2147483648 : Int) ≤ 2147483647) ∧
    (-2147483648 ≤ (2147483647 : Int) ∧ (2147483647 : Int) ≤ 2147483647) ∧
    ¬(-2147483648 ≤ (2147483648 : Int) ∧ (2147483648 : Int) ≤ 2147483647) ∧
    ¬(-2147483648 ≤ (-2147483649 : Int) ∧ (-2147483649 : Int) ≤ 2147483647) := by decide

theorem witness_SeedDefaultIsSeedOfTime : 4294967301 % 4294967296 = 5 % 4294967296 := by decide

theorem witness_InitStepFormula : (1 ≤ 1 ∧ 1 ≤ 623) ∧ 1 ≤ 623 ∧ 623 ≤ 623 := by decide

theorem witness_TwistWordBits : 0 < 32 ∧ 31 < 32 := by decide

theorem witness_RegenReadsListedVersions : (0 ≤ 226 ∧ 226 ≤ 226) ∧ (227 ≤ 227 ∧ 227 ≤ 622) ∧ 227 ≤ 622 ∧ 622 ≤ 622 := by
  decide

theorem witness_SeedForgetsTheState : ∃ t t', exec (.seed 5489#32) State.reset = .next t ∧
    exec (.seed 5489#32) ready = .next t' := ⟨_, _, exec_seed _ _, exec_seed _ _⟩

theorem witness_SeedIsIdempotent : ∃ t u, exec (.seed 0#32) State.reset = .next t ∧ exec (.seed 0#32) t = .next u :=
  ⟨_, _, exec_seed _ _, exec_seed _ _⟩

theorem witness_SeededVectorNotAllZero : ∃ t, exec (.seed 0#32) State.reset = .next t := ⟨_, exec_seed _ _⟩

theorem witness_SeedFrame : ∃ t, exec (.seed 0xffffffff#32) ready = .next t := ⟨_, exec_seed _ _⟩

/-- WORD's and BOOL's three clauses: cursor 0 and 623; 624 and 1023; unseeded. -/
theorem witness_WordResult : (ready.seeded = true ∧ ready.idx.toNat < 624) ∧
    ((readyAt 623).seeded = true ∧ (readyAt 623).idx.toNat < 624) ∧
    ((readyAt 624).seeded = true ∧ 624 ≤ (readyAt 624).idx.toNat) ∧
    ((readyAt 1023).seeded = true ∧ 624 ≤ (readyAt 1023).idx.toNat) ∧ State.reset.seeded = false :=
  ⟨⟨rfl, by decide⟩, ⟨rfl, by decide⟩, ⟨rfl, by decide⟩, ⟨rfl, by decide⟩, rfl⟩

theorem witness_BoolResult : (ready.seeded = true ∧ ready.idx.toNat < 624) ∧
    ((readyAt 624).seeded = true ∧ 624 ≤ (readyAt 624).idx.toNat) ∧ State.reset.seeded = false :=
  ⟨⟨rfl, by decide⟩, ⟨rfl, by decide⟩, rfl⟩

theorem witness_DontCareArgumentBits : (∃ t t', exec (.word 0#32) ready = .next t ∧ exec (.word 9#32) ready = .next t') ∧
    ∃ t t', exec (.bool 0#32) ready = .next t ∧ exec (.bool 9#32) ready = .next t' :=
  ⟨⟨_, _, rfl, rfl⟩, ⟨_, _, rfl, rfl⟩⟩

theorem witness_WordAndBoolFrame : (∃ t, exec (.word 1#32) (readyAt 623) = .next t) ∧
    (∃ t, exec (.bool 1#32) (readyAt 624) = .next t) ∧ (∃ t, exec (.bool 1#32) State.reset = .next t) ∧
    (readyAt 623).idx.toNat < 624 ∧ State.reset.seeded = false :=
  ⟨⟨_, rfl⟩, ⟨_, rfl⟩, ⟨_, rfl⟩, by decide, rfl⟩

theorem witness_BoundedArgumentCheck : sint32 1#32 ≤ 1 ∧ sint32 0x80000000#32 ≤ 1 ∧ 1 < sint32 2#32 ∧
    1 < sint32 0x7fffffff#32 ∧ ∃ t, exec (.bounded 2#32) ready = .next t :=
  ⟨by decide, by decide, by decide, by decide, _, rfl⟩

theorem witness_BoundedUnseeded : 1 < sint32 2#32 ∧ State.reset.seeded = false := ⟨by decide, rfl⟩

theorem witness_BoundedPowerOfTwoResult : (1 ≤ 1 ∧ 1 ≤ 30) ∧ (1 ≤ 30 ∧ 30 ≤ 30) ∧ ready.seeded = true :=
  ⟨by decide, by decide, rfl⟩

theorem witness_BoundedRejectionResult :
    (1 < sint32 3#32 ∧ (¬∃ k, (3#32).toNat = 2 ^ k) ∧ ready.seeded = true ∧ FirstAccepted (3#32).toNat 0 ready) ∧
    (1 < sint32 1073741825#32 ∧ (¬∃ k, (1073741825#32).toNat = 2 ^ k) ∧ FirstAccepted (1073741825#32).toNat 1 ready) :=
  ⟨⟨by decide, three_not_power, rfl, ready_accepts⟩, by decide, odd_not_power, ready_rejects⟩

theorem witness_BoundedAlwaysAnswers : 1 < sint32 2#32 ∧ 1 < sint32 0x7fffffff#32 ∧ (readyAt 1023).seeded = true :=
  ⟨by decide, by decide, rfl⟩

theorem witness_BoundedRangeLaw : ∃ t, exec (.bounded 2#32) ready = .next t ∧ response t = some (.ok, 2#32) :=
  ⟨_, rfl, by decide +kernel⟩

theorem witness_PowerOfTwoTestsAgree : (2 ≤ 2 ∧ 2 ≤ 2147483647) ∧ 2 ≤ 2147483647 ∧ 2147483647 ≤ 2147483647 := by decide

theorem witness_AcceptTestForms : (3 ≤ 3 ∧ 3 ≤ 2147483647 ∧ 0 < 2147483648) ∧ 3 ≤ 2147483647 ∧
    2147483647 ≤ 2147483647 ∧ 2147483647 < 2147483648 := by decide

/-- BOUNDED's frame: an error; a power of two at the last word; one word at the last word. -/
theorem witness_BoundedFrame :
    ((∃ t, exec (.bounded 1#32) ready = .next t) ∧ sint32 1#32 ≤ 1) ∧
    ((∃ t, exec (.bounded 2#32) (readyAt 623) = .next t) ∧ 1 < sint32 2#32 ∧ (readyAt 623).seeded = true ∧
      (∃ k, (2#32).toNat = 2 ^ k) ∧ (readyAt 623).idx.toNat < 624) ∧
    ((∃ t, exec (.bounded 3#32) (readyAt 623) = .next t) ∧ 1 < sint32 3#32 ∧ (readyAt 623).seeded = true ∧
      (¬∃ k, (3#32).toNat = 2 ^ k) ∧ FirstAccepted (3#32).toNat 0 (readyAt 623) ∧ (readyAt 623).idx.toNat + 0 < 624) :=
  ⟨⟨⟨_, rfl⟩, by decide⟩, ⟨⟨_, rfl⟩, by decide, rfl, ⟨1, by decide⟩, by decide⟩,
    ⟨_, rfl⟩, by decide, rfl, three_not_power, ⟨fun i hi => absurd hi (Nat.not_lt_zero i), by decide +kernel⟩, by decide⟩

theorem witness_ReservedOpcodeAnswers : (0b000#3 = 0b000#3 ∨ 0b000#3 = 0b101#3 ∨ 0b000#3 = 0b110#3 ∨ 0b000#3 = 0b111#3) ∧
    (0b111#3 = 0b000#3 ∨ 0b111#3 = 0b101#3 ∨ 0b111#3 = 0b110#3 ∨ 0b111#3 = 0b111#3) := by decide

theorem witness_ErrorsChangeNoOkResponse :
    ∀ r ∈ responses [(0b101#3, 0#32), (opBounded, 1#32)] (afterStream [(opWord, 0#32)] State.reset), isOk r = false := by
  decide

theorem witness_CommandsDependOnArchitecturalState : arch ready = arch { ready with yR := 1#32, cnt := 5#10 } := rfl

/-- No word drawn; the last word of a batch drawn. -/
theorem witness_RegenerationBoundary : (∃ t, exec (.seed 5489#32) ready = .next t) ∧
    Drawn 5489#32 0 { ready with mt := batch 5489#32 0, idx := 624#10 } ∧
    Drawn 5489#32 624 { ready with mt := batch 5489#32 1, idx := 624#10 } :=
  ⟨⟨_, exec_seed _ _⟩, ⟨rfl, rfl, rfl⟩, ⟨rfl, rfl, rfl⟩⟩

theorem witness_CommandsDrawOneSequence : Drawn 0#32 1 { ready with mt := batch 0#32 1, idx := 1#10 } ∧
    (1 < sint32 2#32 ∧ ∃ e, (2#32).toNat = 2 ^ e) ∧ (1 < sint32 3#32 ∧ ¬∃ e, (3#32).toNat = 2 ^ e) ∧
    isOk (response (afterCommand 0b101#3 0#32 ready)) = false :=
  ⟨⟨rfl, rfl, rfl⟩, ⟨by decide, 1, by decide⟩, ⟨by decide, three_not_power⟩, by decide⟩

theorem witness_SequencerConforms : ready.wasReset = true ∧ ready.fsm = .idle ∧ (offerPins opWord 0#32).rst = false ∧
    (offerPins opWord 0#32).cmdValid = true ∧ ∀ q ∈ [quietPins, takePins], q.rst = false :=
  ⟨rfl, rfl, rfl, rfl, by decide⟩

/-- Each row of R284: an error, SEED, a draw with and without a regeneration, a rejection loop. -/
theorem witness_ReferenceCycleCounts :
    (∃ e, commandError 0b101#3 0#32 ready.seeded = some e) ∧ opSeed = opSeed ∧
    (ready.seeded = true ∧ ¬624 ≤ ready.idx.toNat) ∧ ((readyAt 624).seeded = true ∧ 624 ≤ (readyAt 624).idx.toNat) ∧
    (1 < sint32 1073741825#32 ∧ (¬∃ k, (1073741825#32).toNat = 2 ^ k) ∧ FirstAccepted (1073741825#32).toNat 1 ready ∧
      2 * (1 + 1) + 625 * regensIn 2 ready = 4) :=
  ⟨⟨_, rfl⟩, rfl, ⟨rfl, by decide⟩, ⟨rfl, by decide⟩, by decide, odd_not_power, ready_rejects, by decide⟩

theorem witness_IdleTransitions : ready.wasReset = true ∧ ready.fsm = .idle ∧ quietPins.rst = false ∧
    quietPins.cmdValid = false ∧ (offerPins opBounded 1#32).rst = false ∧ (offerPins opBounded 1#32).cmdValid = true :=
  ⟨rfl, rfl, rfl, rfl, rfl, rfl⟩

theorem witness_SeedTransitions : (busy .seed 1).wasReset = true ∧ (busy .seed 1).fsm = .seed ∧ quietPins.rst = false ∧
    (busy .seed 1).cnt.toNat ≤ 623 ∧ (busy .seed 623).cnt.toNat ≤ 623 := ⟨rfl, rfl, rfl, by decide, by decide⟩

theorem witness_DrawAndTwistTransitions : (busy .draw 0).wasReset = true ∧ quietPins.rst = false ∧
    (busy .draw 0).fsm = .draw ∧ ((busy .twist 622).fsm = .twist ∧ (busy .twist 622).cnt.toNat < 623) ∧
    (busy .twist 623).fsm = .twist ∧ (busy .twist 623).cnt.toNat = 623 :=
  ⟨rfl, rfl, rfl, ⟨rfl, by decide⟩, rfl, by decide⟩

/-- A state of the invariant in POST. -/
theorem posting_inv : Inv posting where
  reset := rfl
  idxLe := by decide
  inSeed := by simp [posting]
  inDraw := by simp [posting]
  inTwist := by simp [posting]
  inPost := fun _ => ⟨rfl, rfl, by decide, rfl⟩
  used := by simp [posting]

theorem witness_PostTransitions : Inv posting ∧ posting.fsm = .post ∧ quietPins.rst = false := ⟨posting_inv, rfl, rfl⟩

theorem witness_BusyIgnoresCommandPort : (busy .twist 5).fsm ≠ .idle ∧ quietPins.rst = (offerPins opSeed 1#32).rst ∧
    quietPins.rspReady = (offerPins opSeed 1#32).rspReady ∧ resetPins.rst = true :=
  ⟨by simp [busy], rfl, rfl, rfl⟩

theorem witness_ResponseHeldUntilTaken : (busy .resp 0).wasReset = true ∧ (busy .resp 0).fsm = .resp ∧
    (quietPins.rst = false ∧ quietPins.rspReady = false) ∧ takePins.rst = false ∧ takePins.rspReady = true :=
  ⟨rfl, rfl, ⟨rfl, rfl⟩, rfl, rfl⟩

/-- The edges that write the cursor and the flag: an accepted SEED, a draw at 623, the last twist step, the last seeding step,
a recovery. -/
theorem witness_CursorWriters : (∃ t, edge (offerPins opSeed 1#32) ready = .next t) ∧
    (∃ t, edge quietPins { readyAt 623 with fsm := .draw } = .next t) ∧ ∃ t, edge quietPins (busy .twist 623) = .next t :=
  ⟨⟨_, rfl⟩, ⟨_, rfl⟩, ⟨_, rfl⟩⟩

theorem witness_SeededFlagWriters : (∃ t, edge resetPins ready = .next t) ∧
    (∃ t, edge quietPins (busy .seed 623) = .next t) ∧ ∃ t, edge quietPins (busy .unused7 0) = .next t :=
  ⟨⟨_, rfl⟩, ⟨_, rfl⟩, ⟨_, rfl⟩⟩

theorem witness_VectorWriters : (∃ t, edge quietPins (busy .twist 5) = .next t) ∧ 623 < 624 ∧
    ¬(quietPins.rst = false ∧ ((busy .twist 5).fsm = .idle ∧ quietPins.cmdValid = true ∧ quietPins.cmdOp = opSeed ∧ 623 = 0 ∨
      ((busy .twist 5).fsm = .seed ∨ (busy .twist 5).fsm = .twist) ∧ 623 = (busy .twist 5).cnt.toNat)) :=
  ⟨⟨_, rfl⟩, by decide, by decide⟩

theorem witness_UnusedEncodingRecovers : (busy .unused6 0).wasReset = true ∧ quietPins.rst = false ∧
    (busy .unused6 0).fsm = .unused6 ∧ (busy .unused7 0).fsm = .unused7 ∧ ∃ t, edge quietPins ready = .next t :=
  ⟨rfl, rfl, rfl, rfl, _, rfl⟩

theorem witness_ResetEdgeEffect : resetPins.rst = true := rfl

theorem witness_ResetAbortsCommand : resetPins.rst = true ∧ (busy .twist 100).fsm ≠ .idle ∧
    (∃ t, edge resetPins (busy .twist 100) = .next t) ∧ (∀ c ∈ [(opWord, 0#32), (0b101#3, 0#32)], c.1 ≠ opSeed) ∧
    1 < sint32 2#32 ∧ ∃ u, exec (.seed 1#32) (resetEdge (busy .twist 100)) = .next u :=
  ⟨rfl, by simp [busy], ⟨_, rfl⟩, by simp [opWord, opSeed], by decide, _, exec_seed _ _⟩

theorem witness_RefusedBeforeFirstReset : (cold []).wasReset = false ∧ (nextPins (cold [])).rst = false ∧
    (nextPins (cold [resetPins])).rst = true := ⟨rfl, rfl, rfl⟩

/-- `ready` with the host offering a command at the next edge. -/
def offering (op : Opcode) (arg : Word) : State := { ready with host := [offerPins op arg] }

/-- The clauses of a whole command at a step: an offered command; an offered reserved opcode at each end of the range; a table
word of 35 bits and of whole bytes. -/
theorem witness_StepRunsDecodedCommand :
    ((offering opBool 0#32).level = .transaction ∧
      accepting (nextPins (offering opBool 0#32)) (offering opBool 0#32) = true ∧
      decodePorts opBool 0#32 = .ok (.bool 0#32)) ∧
    ((offering 0b000#3 0#32).level = .transaction ∧
      accepting (nextPins (offering 0b000#3 0#32)) (offering 0b000#3 0#32) = true ∧
      decodePorts 0b000#3 0#32 = .error (.illegalOp 0b000#3)) ∧
    (accepting (nextPins (offering 0b111#3 7#32)) (offering 0b111#3 7#32) = true ∧
      decodePorts 0b111#3 7#32 = .error (.illegalOp 0b111#3)) ∧
    decodeTableWord 35 0x4ffffffff = some (.bounded 0xffffffff#32) ∧ decodeTableWord 40 0x100000000 = some (.seed 0#32) :=
  ⟨⟨rfl, rfl, rfl⟩, ⟨rfl, rfl, by decide⟩, ⟨rfl, by decide⟩, by decide, by decide⟩

theorem witness_StepIsOneEdgeOtherwise : ({ ready with level := .cycle } : State).level = .cycle ∧
    accepting (nextPins ready) ready = false := ⟨rfl, rfl⟩

/-- An idle state of the invariant: seeded or not, whatever vector and hidden registers. -/
theorem idle_inv (b : Bool) (mt : StateVec) (y : Word) (c : Idx) :
    Inv { readyAt 624 with seeded := b, mt := mt, yR := y, cnt := c } where
  reset := rfl
  idxLe := by simp [readyAt]
  inSeed := by simp [readyAt, ready, State.reset]
  inDraw := by simp [readyAt, ready, State.reset]
  inTwist := by simp [readyAt, ready, State.reset]
  inPost := by simp [readyAt, ready, State.reset]
  used := by simp [readyAt, ready, State.reset]

/-- A seeded idle state whose vector is a seed's after one regeneration. -/
def genuineState : State := { readyAt 624 with seeded := true, mt := batch 5489#32 1, yR := 0#32, cnt := 0#10 }

theorem witness_StepKeepsInvariant : Inv posting ∧ (∃ t, step posting = .next t) ∧ Inv genuineState ∧
    ∃ t, step genuineState = .next t := ⟨posting_inv, ⟨_, rfl⟩, idle_inv _ _ _ _, _, rfl⟩

theorem witness_StepNeverStopsFromInvariant : Inv posting ∧ Inv genuineState := ⟨posting_inv, idle_inv _ _ _ _⟩

theorem genuine_content : Content genuineState where
  seeding := by simp [genuineState, readyAt, ready, State.reset]
  genuine := fun _ => ⟨5489#32, 1, by simp [genuineState, readyAt, ready, State.reset]⟩

theorem witness_StepKeepsVectorGenuine : Inv genuineState ∧ Content genuineState ∧ ∃ t, step genuineState = .next t :=
  ⟨idle_inv _ _ _ _, genuine_content, _, rfl⟩

/-- Two unseeded states alike: the vector and the hidden registers differ. -/
theorem witness_ResetContentsUnobservable : ∃ s t : State, Inv s ∧ Inv t ∧ Alike s t ∧ s.mt ≠ t.mt ∧
    ∃ s', step s = .next s' :=
  ⟨{ readyAt 624 with seeded := false, mt := ready.mt, yR := 0#32, cnt := 0#10 },
    { readyAt 624 with seeded := false, mt := State.reset.mt, yR := 1#32, cnt := 9#10 },
    idle_inv _ _ _ _, idle_inv _ _ _ _,
    ⟨⟨rfl, rfl, rfl, rfl, rfl, rfl⟩, fun h => absurd rfl h, by simp [readyAt, ready, State.reset], by simp,
      by simp [readyAt, ready, State.reset], by simp [readyAt, ready, State.reset], by simp [readyAt, ready, State.reset]⟩,
    fun h => absurd (congrArg (readWord · 0) h) (by decide +kernel), _, rfl⟩

end Sys2Proof.Tests
end

section
/-!
PROOFS. The family of 30_encoding.md: decoding by the opcode alone (R104, R105, R117), the nine-digit spelling of a command
word (R103), the spec's example encodings (R116), and what a reserved opcode answers (R105).
-/

namespace Sys2Proof.Machine

/-! ### Decoding a command word -/

/-- A word decodes as its two fields on the ports do (R102, R104). -/
@[simp] theorem decode_make (op : Opcode) (arg : Word) : decode (Command.make op arg) = decodePorts op arg := by
  rw [decode, Command.op_make, Command.arg_make]

/-- Settles O1: a word is made of its fields, and decoding a made word is the port decoder's case split on `op`. -/
theorem decodingIsTotalByOpcode : Obligations.DecodingIsTotalByOpcode := by
  unfold Obligations.DecodingIsTotalByOpcode
  constructor
  · intro cw
    exact ⟨Command.op cw, Command.arg cw, (Command.make_fields cw).symm⟩
  · intro op arg
    rw [decode_make, decodePorts]

/-! ### The hexadecimal spelling of a command word -/

/-- The lowest `k` hexadecimal digits of a number, the highest of them first. -/
def hexDigits (n : Nat) : Nat → List Char
  | 0 => []
  | k + 1 => digitChar (n / 16 ^ k % 16) :: hexDigits n k

/-- A command word is spelled by its nine lowest digits (R103). -/
theorem spellCommand_eq (cw : Command) : spellCommand cw = '0' :: 'x' :: hexDigits cw.toNat 9 := rfl

@[simp] theorem length_hexDigits (n k : Nat) : (hexDigits n k).length = k := by
  induction k with
  | zero => rfl
  | succ k ih => simp [hexDigits, ih]

/-- Reading a digit's character gives the digit back. -/
theorem digitVal_digitChar {d : Nat} (hd : d < 16) : digitVal (digitChar d) = some d := by
  revert d
  decide

/-- One digit read in base 16. -/
theorem numeral_digitChar_cons {d : Nat} (hd : d < 16) (cs : List Char) (acc : Nat) :
    numeral 16 (digitChar d :: cs) acc = numeral 16 cs (acc * 16 + d) := by
  simp [numeral, digitVal_digitChar hd, hd]

/-- The lowest `k` digits of `n` read back as `n mod 16^k`, behind what was read before them. -/
theorem numeral_hexDigits (n k acc : Nat) : numeral 16 (hexDigits n k) acc = some (acc * 16 ^ k + n % 16 ^ k) := by
  induction k generalizing acc with
  | zero => simp [hexDigits, numeral, Nat.mod_one]
  | succ k ih =>
    rw [hexDigits, numeral_digitChar_cons (Nat.mod_lt _ (by decide)), ih, Nat.mod_pow_succ]
    congr 1
    ring

/-- Settles O3: a word's number is below `2^35`, so its nine lowest digits are all of it. -/
theorem commandWordSpelling : Obligations.CommandWordSpelling := by
  unfold Obligations.CommandWordSpelling
  intro op arg
  refine ⟨_, spellCommand_eq _, length_hexDigits _ 9, ?_⟩
  have hlt : (Command.make op arg).toNat < 16 ^ 9 := (Command.make op arg).isLt.trans (by decide)
  rw [numeral_hexDigits, Nat.mod_eq_of_lt hlt, Nat.zero_mul, Nat.zero_add, Command.make_toNat]

/-! ### The spec's example encodings -/

/-- Settles O4: no line of R116 is SEED_DEFAULT, so each assembles by computation at any time; the words are closed. -/
theorem exampleWordsDecode : Obligations.ExampleWordsDecode := by
  unfold Obligations.ExampleWordsDecode
  refine ⟨fun timeMs => ?_, by decide⟩
  exact ⟨rfl, rfl, rfl, rfl, rfl, rfl, rfl, rfl, rfl⟩

/-! ### Reserved opcodes -/

/-- The ports decode a reserved opcode to the decoding error (R105). -/
theorem decodePorts_reserved {op : Opcode} (hr : reservedOp op = true) (arg : Word) :
    decodePorts op arg = .error (.illegalOp op) := by
  rcases decodePorts_cases op arg with ⟨rfl, -⟩ | ⟨rfl, -⟩ | ⟨rfl, -⟩ | ⟨rfl, -⟩ | ⟨-, h⟩
  · cases hr
  · cases hr
  · cases hr
  · cases hr
  · exact h

/-- A reserved opcode, run whole, ends with ILLEGAL_OP (R105). -/
theorem transact_reserved {op : Opcode} (hr : reservedOp op = true) (arg : Word) (s : State) :
    transact op arg s = .next (raise .illegalOp (latch op arg s)) := by
  rw [transact, decodePorts_reserved hr]
  rfl

/-- Settles O31: the error is raised on the latched state, and neither touches the architectural state. -/
theorem reservedOpcodeAnswers : Obligations.ReservedOpcodeAnswers := by
  unfold Obligations.ReservedOpcodeAnswers
  intro op arg s hop
  have hr : reservedOp op = true := by rcases hop with rfl | rfl | rfl | rfl <;> rfl
  exact ⟨_, transact_reserved hr arg s, response_raise _ _, (arch_raise _ _).trans (arch_latch _ _ _)⟩

end Sys2Proof.Machine
end

section
/-!
PROOFS. The family of 40_seed.md: the seeding step on unbounded integers (R141), and that nothing from before a SEED shows
after it (R144), which needs that a command's response and architectural effect are functions of the architectural state.
-/

namespace Sys2Proof.Machine

/-! ### The seeding step -/

/-- The seeding step's 32-bit multiply and add, on unbounded integers (R141). -/
theorem initStep_toNat (prev : Word) (i : Nat) :
    (initStep prev i).toNat = (1812433253 * (prev ^^^ (prev >>> 30)).toNat + i) % 4294967296 := by
  rw [initStep, BitVec.toNat_add, BitVec.toNat_mul, BitVec.toNat_ofNat i, ← Nat.add_mod]
  rfl

/-- Settles O8: the step on unbounded integers; a sum reduced at the end may have a reduced summand. -/
theorem initStepFormula : Obligations.InitStepFormula := by
  unfold Obligations.InitStepFormula
  refine ⟨fun prev i _ _ => ⟨initStep_toNat prev i, ?_⟩, by decide⟩
  rw [Nat.mod_add_mod]
  exact initStep_toNat prev i

/-! ### Commands on states that agree in their architectural part -/

/-- Two states that show the host the same: the response presented and the architectural state (10_state.md R30). -/
def Agree (s t : State) : Prop := response s = response t ∧ arch s = arch t

/-- Two outcomes that both go on, to states that agree. -/
def NextsAgree (o o' : Host.Outcome State Fault Refusal) : Prop :=
  ∃ t t', o = .next t ∧ o' = .next t' ∧ Agree t t'

theorem Agree.next {t t' : State} (h : Agree t t') : NextsAgree (.next t) (.next t') := ⟨t, t', rfl, rfl, h⟩

/-- A check that answers the same on both sides, its branches compared one by one. -/
theorem NextsAgree.ite {b b' : Bool} {x x' y y' : Host.Outcome State Fault Refusal} (hb : b = b')
    (hx : NextsAgree x x') (hy : NextsAgree y y') : NextsAgree (if b then x else y) (if b' then x' else y') := by
  subst hb
  split
  · exact hx
  · exact hy

/-- The same response given from the same architectural state. -/
theorem respond_agree (st : Status) {d d' : Word} {s t : State} (hd : d = d') (h : arch s = arch t) :
    Agree (respond st d s) (respond st d' t) := by
  subst hd
  exact ⟨rfl, h⟩

/-- The same error raised from the same architectural state. -/
theorem raise_agree (e : Status) {s t : State} (h : arch s = arch t) : Agree (raise e s) (raise e t) :=
  respond_agree e rfl h

/-- SEED leaves states that agree, whatever states it met (R144). -/
theorem afterSeed_agree (arg : Word) (s t : State) : Agree (afterSeed arg s) (afterSeed arg t) := ⟨rfl, rfl⟩

/-- The word drawn depends on the architectural state alone. -/
theorem draw_yR_eq {s t : State} (h : arch s = arch t) : (draw s).yR = (draw t).yR := arch_drawnAt 0 h

/-- So does a rejection loop, of any number of passes (43_bounded.md R244). -/
theorem rejectionLoop_agree (n k : Nat) {s t : State} (h : arch s = arch t) :
    Agree (rejectionLoop n k s) (rejectionLoop n k t) := by
  induction k generalizing s t with
  | zero => exact ⟨rfl, h⟩
  | succ k ih =>
    rw [rejectionLoop, rejectionLoop, draw_yR_eq h]
    split
    · exact respond_agree .ok rfl (arch_draw h)
    · exact ih (arch_draw h)

/-- A decoded command's response and architectural effect depend on the architectural state alone (R144). -/
theorem exec_agree (i : Instr) {s t : State} (h : arch s = arch t) : NextsAgree (exec i s) (exec i t) := by
  obtain ⟨-, -, hs⟩ := arch_inj h
  have hl : ∀ op arg, arch (latch op arg s) = arch (latch op arg t) := fun _ _ => h
  cases i with
  | seed arg =>
    rw [exec_seed, exec_seed]
    exact (afterSeed_agree arg s t).next
  | word x =>
    have hw := hl opWord x
    exact .ite hs (respond_agree .ok (draw_yR_eq hw) (arch_draw hw)).next (raise_agree .notSeeded hw).next
  | bool x =>
    have hw := hl opBool x
    have hd := congrArg (fun y => zext32 (bitOf y 31)) (draw_yR_eq hw)
    exact .ite hs (respond_agree .ok hd (arch_draw hw)).next (raise_agree .notSeeded hw).next
  | bounded n =>
    have hw := hl opBounded n
    have hd := congrArg (fun y => BitVec.ofNat 32 (caseA (boundNat n) (bitsOf y))) (draw_yR_eq hw)
    have hA := (respond_agree .ok hd (arch_draw hw)).next
    have hB := (rejectionLoop_agree (boundNat n) Config.loopPasses hw).next
    exact .ite rfl (raise_agree .invalidArgument hw).next (.ite hs (.ite rfl hA hB) (raise_agree .notSeeded hw).next)

/-- So do those of a command of any opcode. -/
theorem transact_agree (op : Opcode) (arg : Word) {s t : State} (h : arch s = arch t) :
    NextsAgree (transact op arg s) (transact op arg t) := by
  rw [transact, transact]
  match decodePorts op arg with
  | .ok i => exact exec_agree i h
  | .error (.illegalOp o) => exact (raise_agree .illegalOp (s := latch o arg s) (t := latch o arg t) h).next

/-- The states after a command agree when those before it have the same architectural part. -/
theorem afterCommand_agree (op : Opcode) (arg : Word) {s t : State} (h : arch s = arch t) :
    Agree (afterCommand op arg s) (afterCommand op arg t) := by
  obtain ⟨s', t', hs, ht, ha⟩ := transact_agree op arg h
  rw [afterCommand, afterCommand, hs, ht]
  exact ha

/-- A stream's responses depend on the architectural state it starts from alone. -/
theorem responses_eq_of_arch (cs : List (Opcode × Word)) {s t : State} (h : arch s = arch t) :
    responses cs s = responses cs t := by
  induction cs generalizing s t with
  | nil => rfl
  | cons c cs ih =>
    obtain ⟨hr, ha⟩ := afterCommand_agree c.1 c.2 h
    rw [responses, responses, hr, ih ha]

/-- Settles O14: the states after the two SEEDs agree, and so do the responses of every stream from there. -/
theorem seedForgetsTheState : Obligations.SeedForgetsTheState := by
  unfold Obligations.SeedForgetsTheState
  intro arg s s' t t' ht ht'
  obtain rfl : afterSeed arg s = t := Host.Outcome.next.inj ((exec_seed arg s).symm.trans ht)
  obtain rfl : afterSeed arg s' = t' := Host.Outcome.next.inj ((exec_seed arg s').symm.trans ht')
  obtain ⟨hr, ha⟩ := afterSeed_agree arg s s'
  exact ⟨ha, hr, fun cs => responses_eq_of_arch cs ha⟩

end Sys2Proof.Machine
end

section
/-!
PROOFS. The family of 41_regenerate.md: the twist word bit by bit (R171, R172), the source's three ranges against the single
loop (R173, R174), and which version of each word a step reads (R175), which the raw stream's recurrence says in one line.
-/

namespace Sys2Proof.Machine

/-! ### The twist word -/

/-- `MATRIX_A` has its top bit set (R172). -/
theorem matrixA_bit31 : bitOf Config.matrixA 31 = true := by decide

/-- Settles O9: each bit claim is `twistY_bit` or `twistWord_bit` at that bit, and `MATRIX_A` passes bit 0 of `b` to bit 31. -/
theorem twistWordBits : Obligations.TwistWordBits := by
  unfold Obligations.TwistWordBits
  refine ⟨fun a b c => ⟨fun k hk => twistY_bit a b hk, rfl, ?_, ?_, ?_⟩, matrixA_bit31, by decide⟩
  · exact twistY_bit a b (by decide)
  · simp [bitOf]
  · rw [twistWord_bit a b c (by decide), matrixA_bit31]
    simp

/-! ### The three ranges -/

/-- Reading past the end wraps round, so `kk + M` and `kk + (M - N)` name the same word (R174). -/
theorem readWord_add_size (mt : StateVec) (i : Nat) : readWord mt (i + 624) = readWord mt i := by
  rw [← readWord_mod, Nat.add_mod_right, readWord_mod]

/-- The first range is the single loop's first steps: neither index wraps. -/
theorem twistLow_eq_twistTo (mt : StateVec) (k : Nat) : twistLow mt k = twistTo mt k := by
  induction k with
  | zero => rfl
  | succ k ih => rw [twistLow, ih, twistTo, twistStep]

/-- The second range goes on where the first stops: `mt[kk + M]` wraps to `mt[kk + (M - N)]`. -/
theorem twistMid_eq_twistTo (mt : StateVec) (k : Nat) : twistMid (twistTo mt 227) k = twistTo mt (227 + k) := by
  induction k with
  | zero => rfl
  | succ k ih =>
    have wrap : 227 + k + 397 = k + 624 := by omega
    rw [twistMid, ih, ← Nat.add_assoc, twistTo, twistStep, wrap, readWord_add_size]

/-- The last step reads words 0 and 396 round the end of the vector. -/
theorem twistStep_last (mt : StateVec) :
    twistStep mt 623 = writeWord mt 623 (twistWord (readWord mt 623) (readWord mt 0) (readWord mt 396)) := by
  rw [twistStep, ← readWord_add_size mt 0, ← readWord_add_size mt 396]

/-- The three ranges in their order are one regeneration (R173, R174). -/
theorem twistRanges_eq (mt : StateVec) : twistRanges mt = twistAll mt := by
  rw [twistRanges, twistLow_eq_twistTo, twistMid_eq_twistTo, ← twistStep_last, twistAll_eq]
  exact twistTo_succ mt rfl

/-- Settles O11: both forms are `twistAll`; the cursor and the flag are REGEN's own fields. -/
theorem regenRangesEqualSingleLoop : Obligations.RegenRangesEqualSingleLoop := by
  unfold Obligations.RegenRangesEqualSingleLoop
  intro s
  exact ⟨(twistRanges_eq s.mt).symm, twistAll_eq s.mt, regen_idx s, regen_seeded s⟩

/-! ### Old words and new words -/

/-- The stream's second batch is the regenerated vector. -/
theorem rawStream_new (mt : StateVec) {i : Nat} (hi : i < 624) : rawStream mt (i + 624) = readWord (twistAll mt) i := by
  rw [rawStream_twistAll, rawStream_lt _ hi]

/-- A new word, made of the old word at its place and two words of the stream: old below 624, new from there on. -/
theorem readWord_twistAll_recurrence (mt : StateVec) {i : Nat} (hi : i < 624) :
    readWord (twistAll mt) i = twistWord (readWord mt i) (rawStream mt (i + 1)) (rawStream mt (i + 397)) := by
  rw [← rawStream_new mt hi, rawStream_recurrence, rawStream_lt mt hi]

/-- Settles O12: the recurrence, with each word of the stream read as old or new by its number. -/
theorem regenReadsListedVersions : Obligations.RegenReadsListedVersions := by
  unfold Obligations.RegenReadsListedVersions
  refine fun mt => ⟨fun kk hi => ?_, fun kk lo hi => ?_, ?_⟩
  · rw [readWord_twistAll_recurrence mt (by omega), rawStream_lt mt (by omega), rawStream_lt mt (by omega)]
  · have wrap : kk + 397 = kk - 227 + 624 := by omega
    rw [readWord_twistAll_recurrence mt (by omega), rawStream_lt mt (by omega), wrap, rawStream_new mt (by omega)]
  · rw [readWord_twistAll_recurrence mt (by decide), ← rawStream_new mt (i := 0) (by decide),
      ← rawStream_new mt (i := 396) (by decide)]

end Sys2Proof.Machine
end

section
/-!
PROOFS. The family of 42_draw.md: the tempering's values (R202), and that all commands draw from one sequence fixed by the
seed (R207): a draw moves the engine from `Drawn seed k` to `Drawn seed (k + 1)` and gives word `k + 1` (R180), and what a
command answers is its function of the words it draws.
-/

namespace Sys2Proof.Machine

/-! ### The tempering -/

/-- Settles O10: the values are closed words, each computed. -/
theorem temperStageValues : Obligations.TemperStageValues := by
  unfold Obligations.TemperStageValues
  decide

/-! ### Draws of a seeded engine -/

/-- How many words are drawn is said of the architectural state alone. -/
theorem Drawn.of_arch {seed : Word} {k : Nat} {s t : State} (h : Drawn seed k s) (ha : arch t = arch s) :
    Drawn seed k t := by
  obtain ⟨hm, hi, hs⟩ := arch_inj ha
  exact ⟨hs.trans h.seeded, hm.trans h.mt, (congrArg BitVec.toNat hi).trans h.idx⟩

/-- The regeneration boundary (R180): the cursor is exhausted exactly when whole batches have been drawn. -/
theorem Drawn.exhausted_iff_mod {seed : Word} {k : Nat} {s : State} (h : Drawn seed k s) :
    exhausted s = true ↔ k % 624 = 0 := by
  rw [exhausted_iff, h.idx]
  split <;> omega

/-- Whether or not the next draw regenerates, it reads word `k mod 624` of batch `k / 624 + 1` (R180). -/
theorem Drawn.refilled {seed : Word} {k : Nat} {s : State} (h : Drawn seed k s) :
    (refill s).seeded = true ∧ (refill s).mt = batch seed (k / 624 + 1) ∧ (refill s).idx.toNat = k % 624 := by
  rw [refill]
  split
  · next he =>
    have hk : k % 624 = 0 := h.exhausted_iff_mod.mp he
    have hg : (if k = 0 then 0 else (k - 1) / 624 + 1) = k / 624 := by split <;> omega
    rw [regen_seeded, regen_mt, regen_idx, h.mt, hg, hk]
    exact ⟨h.seeded, rfl, rfl⟩
  · next he =>
    have hk : k % 624 ≠ 0 := fun h0 => he (h.exhausted_iff_mod.mpr h0)
    have h0 : k ≠ 0 := by rintro rfl; exact hk rfl
    have hg : (k - 1) / 624 = k / 624 := by omega
    have hi : (k - 1) % 624 + 1 = k % 624 := by omega
    rw [h.mt, h.idx, if_neg h0, if_neg h0, hg, hi]
    exact ⟨h.seeded, rfl, rfl⟩

/-- A draw gives the next word of the seed's sequence. -/
theorem Drawn.draw_yR {seed : Word} {k : Nat} {s : State} (h : Drawn seed k s) :
    (draw s).yR = wordOfDraw seed (k + 1) := by
  obtain ⟨-, hm, hi⟩ := h.refilled
  rw [draw, takeWord_yR, hm, hi]
  rfl

/-- A draw takes exactly one word. -/
theorem Drawn.draw_succ {seed : Word} {k : Nat} {s : State} (h : Drawn seed k s) : Drawn seed (k + 1) (draw s) := by
  obtain ⟨hs, hm, hi⟩ := h.refilled
  have hlt : k % 624 < 624 := Nat.mod_lt k (by decide)
  refine ⟨hs, hm, ?_⟩
  rw [draw, takeWord_idx, idx_succ (by omega), hi]
  rfl

/-- Repeated draws take one word each. -/
theorem Drawn.drawTimes_add {seed : Word} {k : Nat} {s : State} (h : Drawn seed k s) (j : Nat) :
    Drawn seed (k + j) (drawTimes j s) := by
  induction j with
  | zero => exact h
  | succ j ih =>
    rw [drawTimes_succ]
    exact ih.draw_succ

/-- The words they give are consecutive in the seed's sequence. -/
theorem Drawn.drawnAt_eq {seed : Word} {k : Nat} {s : State} (h : Drawn seed k s) (j : Nat) :
    drawnAt s j = wordOfDraw seed (k + 1 + j) := by
  rw [drawnAt, drawTimes_succ, (h.drawTimes_add j).draw_yR, Nat.add_right_comm]

/-! ### Commands on a seeded engine -/

/-- A command that draws `j + 1` words and then answers has taken `j + 1` words. -/
theorem Drawn.answered {seed : Word} {k : Nat} {s : State} (h : Drawn seed k s) (op : Opcode) (arg : Word) (st : Status)
    (d : Word) (j : Nat) : Drawn seed (k + 1 + j) (respond st d (drawTimes (j + 1) (latch op arg s))) := by
  have hl : Drawn seed k (latch op arg s) := h.of_arch (arch_latch op arg s)
  rw [Nat.add_right_comm]
  exact (hl.drawTimes_add (j + 1)).of_arch (arch_respond st d _)

/-- WORD answers the next word and takes it alone. -/
theorem Drawn.exec_word {seed : Word} {k : Nat} {s : State} (h : Drawn seed k s) (x : Word) :
    ∃ t, exec (.word x) s = .next t ∧ response t = some (.ok, wordOfDraw seed (k + 1)) ∧ Drawn seed (k + 1) t := by
  rcases exec_word_cases x s with ⟨-, he⟩ | ⟨hs, -⟩
  · rw [h.drawnAt_eq 0] at he
    exact ⟨_, he, response_respond _ _ _, h.answered opWord x .ok _ 0⟩
  · cases h.seeded.symm.trans hs

/-- BOOL answers bit 31 of the next word and takes it alone. -/
theorem Drawn.exec_bool {seed : Word} {k : Nat} {s : State} (h : Drawn seed k s) (x : Word) :
    ∃ t, exec (.bool x) s = .next t ∧ response t = some (.ok, zext32 (bitOf (wordOfDraw seed (k + 1)) 31)) ∧
      Drawn seed (k + 1) t := by
  rcases exec_bool_cases x s with ⟨-, he⟩ | ⟨hs, -⟩
  · rw [h.drawnAt_eq 0] at he
    exact ⟨_, he, response_respond _ _ _, h.answered opBool x .ok _ 0⟩
  · cases h.seeded.symm.trans hs

/-- BOUNDED with a legal bound on a seeded engine: Case A or Case B, no error (43_bounded.md R240). -/
theorem exec_bounded_draws {arg : Word} {s : State} (hn : 1 < sint32 arg) (hs : s.seeded = true) :
    ((∃ e, arg.toNat = 2 ^ e) ∧ exec (.bounded arg) s =
      .next (respond .ok (BitVec.ofNat 32 (caseA arg.toNat (bitsOf (drawnAt s 0)))) (draw (latch opBounded arg s)))) ∨
    ((¬∃ e, arg.toNat = 2 ^ e) ∧ ∃ j, FirstAccepted arg.toNat j s ∧ exec (.bounded arg) s =
      .next (respond .ok (BitVec.ofNat 32 (caseB arg.toNat (bitsOf (drawnAt s j))))
        (drawTimes (j + 1) (latch opBounded arg s)))) := by
  have hb : badBound arg = false := badBound_eq_false.mpr hn
  rcases exec_bounded_cases arg s with ⟨hbad, -⟩ | ⟨-, hun, -⟩ | ⟨-, -, hp, he⟩ | ⟨-, -, hp, j, -, hf, he⟩
  · cases hb.symm.trans hbad
  · cases hs.symm.trans hun
  · exact .inl ⟨hp, he⟩
  · exact .inr ⟨hp, j, hf, he⟩

/-- BOUNDED with a power of two answers Case A of the next word and takes it alone (43_bounded.md R243). -/
theorem Drawn.exec_caseA {seed : Word} {k : Nat} {s : State} (h : Drawn seed k s) {arg : Word} (hn : 1 < sint32 arg)
    (hp : ∃ e, arg.toNat = 2 ^ e) : ∃ t, exec (.bounded arg) s = .next t ∧
      response t = some (.ok, BitVec.ofNat 32 (caseA arg.toNat (bitsOf (wordOfDraw seed (k + 1))))) ∧
      Drawn seed (k + 1) t := by
  rcases exec_bounded_draws hn h.seeded with ⟨-, he⟩ | ⟨hnp, -⟩
  · rw [h.drawnAt_eq 0] at he
    exact ⟨_, he, response_respond _ _ _, h.answered opBounded arg .ok _ 0⟩
  · exact absurd hp hnp

/-- BOUNDED otherwise takes the words up to and with the first accepted one and answers Case B of it
(43_bounded.md R244). -/
theorem Drawn.exec_caseB {seed : Word} {k : Nat} {s : State} (h : Drawn seed k s) {arg : Word} (hn : 1 < sint32 arg)
    (hp : ¬∃ e, arg.toNat = 2 ^ e) : ∃ t j, exec (.bounded arg) s = .next t ∧
      (∀ i, i < j → accepts arg.toNat (bitsOf (wordOfDraw seed (k + 1 + i))) = false) ∧
      accepts arg.toNat (bitsOf (wordOfDraw seed (k + 1 + j))) = true ∧
      response t = some (.ok, BitVec.ofNat 32 (caseB arg.toNat (bitsOf (wordOfDraw seed (k + 1 + j))))) ∧
      Drawn seed (k + 1 + j) t := by
  rcases exec_bounded_draws hn h.seeded with ⟨hpow, -⟩ | ⟨-, j, hf, he⟩
  · exact absurd hpow hp
  · rw [h.drawnAt_eq j] at he
    simp only [FirstAccepted, h.drawnAt_eq] at hf
    obtain ⟨rejected, accepted⟩ := hf
    exact ⟨_, j, he, rejected, accepted, response_respond _ _ _, h.answered opBounded arg .ok _ j⟩

/-! ### Errors -/

/-- A draw command that passes its checks ends with OK. -/
theorem DrawAnswer.isOk_response {op : Opcode} {arg : Word} {s t : State} (h : DrawAnswer op arg s t) :
    isOk (response t) = true := by
  cases h with
  | word _ ht => rw [ht]; rfl
  | bool _ ht => rw [ht]; rfl
  | caseA _ _ _ ht => rw [ht]; rfl
  | caseB _ _ _ _ _ _ ht => rw [ht]; rfl

/-- A command that does not end with OK leaves the architectural state alone (60_exceptions.md R315). -/
theorem arch_afterCommand_of_not_ok {op : Opcode} {arg : Word} {s : State}
    (h : isOk (response (afterCommand op arg s)) = false) : arch (afterCommand op arg s) = arch s := by
  obtain ⟨t, ht, hc⟩ := transact_cases op arg s
  have hat : afterCommand op arg s = t := by rw [afterCommand, ht]
  rw [hat] at h ⊢
  rcases hc with ⟨-, -, rfl⟩ | ⟨-, e, -, -, rfl⟩ | ⟨-, -, -, hd⟩
  · cases h
  · exact (arch_raise e _).trans (arch_latch op arg s)
  · cases hd.isOk_response.symm.trans h

/-- Settles O37: a seeded engine's next words are those of R180, each command answers its function of the words it takes,
and an error leaves the architectural state, and with it the count of the words drawn, alone. -/
theorem commandsDrawOneSequence : Obligations.CommandsDrawOneSequence := by
  unfold Obligations.CommandsDrawOneSequence
  intro seed k s h
  exact ⟨h.exec_word, h.exec_bool, fun _ => h.exec_caseA, fun _ => h.exec_caseB,
    fun _ _ he => h.of_arch (arch_afterCommand_of_not_ok he)⟩

end Sys2Proof.Machine
end

section
/-!
PROOFS. The family of 43_bounded.md: the argument check (R241), the power-of-two tests (R242), the two mappings of a word to
the range (R243, R244), the accept test's three forms (R245), and the range of every OK response (R247).
-/

namespace Sys2Proof.Machine

/-! ### The power-of-two tests -/

/-- A bound in the signed range is a number of 32 bits. -/
theorem toNat_ofNat_of_le {n : Nat} (h : n ≤ 2147483647) : (BitVec.ofNat 32 n).toNat = n := by
  rw [BitVec.toNat_ofNat]
  exact Nat.mod_eq_of_lt (by omega)

/-- The powers of two in the signed range start at `2^1` and end at `2^30`. -/
theorem exponent_bounds {n k : Nat} (h2 : 2 ≤ n) (hn : n ≤ 2147483647) (hk : n = 2 ^ k) : 1 ≤ k ∧ k ≤ 30 := by
  have hlow : 2 ^ 0 < 2 ^ k := by omega
  have hhigh : 2 ^ k < 2 ^ 31 := by omega
  have := (Nat.pow_lt_pow_iff_right (by decide)).mp hlow
  have := (Nat.pow_lt_pow_iff_right (by decide)).mp hhigh
  omega

/-- The test `n & (n - 1) = 0` in 32-bit words is the one on numbers. -/
theorem isPow2_iff_word {n : Nat} (h1 : 1 ≤ n) (hn : n ≤ 2147483647) :
    isPow2 n = true ↔ BitVec.ofNat 32 n &&& (BitVec.ofNat 32 n - 1#32) = 0#32 := by
  rw [BitVec.ofNat_sub_ofNat_of_le n 1 (by decide) h1, ← BitVec.toNat_inj, BitVec.toNat_and, toNat_ofNat_of_le hn,
    toNat_ofNat_of_le (by omega), isPow2, beq_iff_eq]
  rfl

/-- Masking with a complement changes nothing exactly when masking with the word itself leaves nothing. -/
theorem and_not_eq_self_iff {w : Nat} (x y : BitVec w) : x &&& ~~~y = x ↔ x &&& y = 0#w := by
  rw [BitVec.eq_of_getElem_eq_iff, BitVec.eq_of_getElem_eq_iff]
  refine forall₂_congr fun i hi => ?_
  rw [BitVec.getElem_and, BitVec.getElem_and, BitVec.getElem_not, BitVec.getElem_zero]
  cases x[i] <;> cases y[i] <;> decide

/-- The source's two tests agree, since `-x` is the complement of `x - 1`. -/
theorem and_neg_eq_self_iff {w : Nat} (x : BitVec w) : x &&& -x = x ↔ x &&& (x - 1#w) = 0#w := by
  rw [BitVec.neg_eq_not_add, ← BitVec.not_sub_one_eq_not_add_one, and_not_eq_self_iff]

/-- Settles O28: the first word test is the test on numbers, the second is equivalent to the first, and the exponents are
those of the signed range. -/
theorem powerOfTwoTestsAgree : Obligations.PowerOfTwoTestsAgree := by
  unfold Obligations.PowerOfTwoTestsAgree
  intro n h2 hn
  have hword := isPow2_iff_word (by omega) hn
  refine ⟨?_, hword, hword.trans (and_neg_eq_self_iff _).symm⟩
  rw [isPow2_iff h2]
  constructor
  · rintro ⟨k, hk⟩
    obtain ⟨hlow, hhigh⟩ := exponent_bounds h2 hn hk
    exact ⟨k, hlow, hhigh, hk⟩
  · rintro ⟨k, -, -, hk⟩
    exact ⟨k, hk⟩

/-! ### The accept test -/

/-- The sum the accept test looks at, on unbounded integers (R245): `bits - val + (n - 1)`. -/
def acceptSum (n bits : Nat) : Int := (bits : Int) - (bits % n : Nat) + ((n : Int) - 1)

/-- Nothing is cut off in the accept test: with a positive bound its subtractions stay above 0. -/
theorem acceptSum_eq {n bits : Nat} (h1 : 1 ≤ n) : acceptSum n bits = (bits - bits % n + (n - 1) : Nat) := by
  have := Nat.mod_le bits n
  rw [acceptSum]
  omega

/-- The sum fits in 32 bits without a sign. -/
theorem acceptSum_range {n bits : Nat} (h1 : 1 ≤ n) (hn : n ≤ 2147483647) (hb : bits < 2147483648) :
    0 ≤ acceptSum n bits ∧ acceptSum n bits < 4294967296 := by
  rw [acceptSum_eq h1]
  omega

/-- The accept test on unbounded integers. -/
theorem accepts_iff_acceptSum {n bits : Nat} (h1 : 1 ≤ n) : accepts n bits = true ↔ acceptSum n bits ≤ 2147483647 := by
  rw [acceptSum_eq h1, accepts, decide_eq_true_eq]
  omega

/-- Bit 31 of an integer of 32 bits is clear when it is below `2^31`. -/
theorem bit31_ofInt_clear_iff {z : Int} (h0 : 0 ≤ z) (hz : z < 4294967296) :
    bitOf (BitVec.ofInt 32 z) 31 = false ↔ z ≤ 2147483647 := by
  have hmsb : bitOf (BitVec.ofInt 32 z) 31 = (BitVec.ofInt 32 z).msb := (BitVec.msb_eq_getLsbD_last _).symm
  rw [hmsb, BitVec.msb_eq_false_iff_two_mul_lt, BitVec.toNat_ofInt]
  omega

/-- The accept test as a threshold: the block of `n` values that `bits` is in ends at or below `2^31`. -/
theorem accepts_iff_threshold {n bits : Nat} (h1 : 1 ≤ n) : accepts n bits = true ↔ bits < n * (2147483648 / n) := by
  have hblock : bits - bits % n = bits / n * n := by
    have := Nat.div_add_mod' bits n
    omega
  calc accepts n bits = true
    _ ↔ (bits / n + 1) * n ≤ 2147483648 := by
      rw [accepts, decide_eq_true_eq, hblock, Nat.succ_mul]
      omega
    _ ↔ bits / n < 2147483648 / n := (Nat.le_div_iff_mul_le h1).symm
    _ ↔ bits < n * (2147483648 / n) := by rw [Nat.div_lt_iff_lt_mul h1, Nat.mul_comm]

/-- Settles O29: the three forms are said of one sum, and the examples are the threshold's values. -/
theorem acceptTestForms : Obligations.AcceptTestForms := by
  unfold Obligations.AcceptTestForms
  constructor
  · intro n bits h3 hn hb
    have h1 : 1 ≤ n := by omega
    obtain ⟨h0, hlt⟩ := acceptSum_range h1 hn hb
    have hsum : (bits : Int) - (bits % n : Nat) + n - 1 = acceptSum n bits := by rw [acceptSum, add_sub_assoc]
    rw [hsum]
    exact ⟨⟨h0, hlt⟩, accepts_iff_acceptSum h1,
      (accepts_iff_acceptSum h1).trans (bit31_ofInt_clear_iff h0 hlt).symm, accepts_iff_threshold h1⟩
  · intro bits _
    exact ⟨accepts_iff_threshold (by decide), accepts_iff_threshold (by decide), accepts_iff_threshold (by decide),
      accepts_iff_threshold (by decide)⟩

/-! ### The two mappings -/

/-- Case A maps into `[1, n]` (R243). -/
theorem caseA_range {n bits : Nat} (h1 : 1 ≤ n) (hb : bits < 2147483648) : 1 ≤ caseA n bits ∧ caseA n bits ≤ n := by
  have hlt : n * bits / 2147483648 < n := by
    refine Nat.div_lt_of_lt_mul ?_
    rw [Nat.mul_comm]
    exact Nat.mul_lt_mul_of_pos_right hb h1
  rw [caseA]
  omega

/-- Case B maps into `[1, n]` (R244). -/
theorem caseB_range {n : Nat} (bits : Nat) (h1 : 1 ≤ n) : 1 ≤ caseB n bits ∧ caseB n bits ≤ n := by
  have hlt : bits % n < n := Nat.mod_lt bits h1
  rw [caseB]
  omega

/-- For a power of two Case A keeps the top `k` of the 31 bits (R243). -/
theorem caseA_two_pow {k : Nat} (bits : Nat) (hk : k ≤ 30) : caseA (2 ^ k) bits = bits / 2 ^ (31 - k) + 1 := by
  have hsplit : 2147483648 = 2 ^ k * 2 ^ (31 - k) := by
    rw [← Nat.pow_add, Nat.add_sub_cancel' (by omega)]
  rw [caseA, hsplit, Nat.mul_div_mul_left _ _ (by positivity)]

/-- The top `k` of the 31 bits are the top `k` bits of the word. -/
theorem bitsOf_div_two_pow {k : Nat} (w : Word) (hk : k ≤ 30) : bitsOf w / 2 ^ (31 - k) = w.toNat / 2 ^ (32 - k) := by
  have hexp : 32 - k = 1 + (31 - k) := by omega
  rw [bitsOf, BitVec.toNat_ushiftRight, Nat.shiftRight_eq_div_pow, Nat.div_div_eq_div_mul, ← Nat.pow_add, hexp]

/-! ### The argument check -/

/-- The argument check fails on the signed value (R241). -/
theorem badBound_eq_true {arg : Word} : badBound arg = true ↔ sint32 arg ≤ 1 := decide_eq_true_iff

/-- A bound that passes the argument check is its argument, from 2 to 2^31 - 1. -/
theorem toNat_of_one_lt_sint32 {arg : Word} (h : 1 < sint32 arg) :
    2 ≤ arg.toNat ∧ arg.toNat ≤ 2147483647 ∧ (arg.toNat : Int) = sint32 arg := by
  obtain ⟨he, hlow, hhigh, hs⟩ := boundNat_spec (badBound_eq_false.mpr h)
  rw [he] at hlow hhigh hs
  exact ⟨hlow, hhigh, hs⟩

/-- An argument in the signed range is its own signed value. -/
theorem sint32_of_toNat_le {arg : Word} (h : arg.toNat ≤ 2147483647) : sint32 arg = arg.toNat := by
  rw [sint32, if_pos (by omega)]

/-- A bound that fails the check is answered before anything is drawn, seeded or not (R241). -/
theorem exec_bounded_of_le_one {arg : Word} (h : sint32 arg ≤ 1) (s : State) :
    exec (.bounded arg) s = .next (raise .invalidArgument (latch opBounded arg s)) := by
  have hb : badBound arg = true := badBound_eq_true.mpr h
  rcases exec_bounded_cases arg s with ⟨-, he⟩ | ⟨hn, -⟩ | ⟨hn, -⟩ | ⟨hn, -⟩
  · exact he
  · cases hn.symm.trans hb
  · cases hn.symm.trans hb
  · cases hn.symm.trans hb

/-- Every response of BOUNDED: an error of its two checks, or OK with a value in `[1, n]` (R240, R247). -/
theorem response_bounded_cases {arg : Word} {s t : State} (ht : exec (.bounded arg) s = .next t) :
    (sint32 arg ≤ 1 ∧ response t = some (.invalidArgument, 0#32)) ∨
    (1 < sint32 arg ∧ s.seeded = false ∧ response t = some (.notSeeded, 0#32)) ∨
    (1 < sint32 arg ∧ s.seeded = true ∧ ∃ m, 1 ≤ m ∧ m ≤ arg.toNat ∧ response t = some (.ok, BitVec.ofNat 32 m)) := by
  rcases exec_bounded_cases arg s with ⟨hb, he⟩ | ⟨hb, hs, he⟩ | ⟨hb, hs, -, he⟩ | ⟨hb, hs, -, j, -, -, he⟩
  all_goals obtain rfl := Host.Outcome.next.inj (he.symm.trans ht)
  · exact .inl ⟨badBound_eq_true.mp hb, response_raise _ _⟩
  · exact .inr (.inl ⟨badBound_eq_false.mp hb, hs, response_raise _ _⟩)
  · have hn := badBound_eq_false.mp hb
    have h1 : 1 ≤ arg.toNat := Nat.le_of_succ_le (toNat_of_one_lt_sint32 hn).1
    obtain ⟨hlow, hhigh⟩ := caseA_range h1 (bitsOf_lt (drawnAt s 0))
    exact .inr (.inr ⟨hn, hs, _, hlow, hhigh, response_respond _ _ _⟩)
  · have hn := badBound_eq_false.mp hb
    have h1 : 1 ≤ arg.toNat := Nat.le_of_succ_le (toNat_of_one_lt_sint32 hn).1
    obtain ⟨hlow, hhigh⟩ := caseB_range (bitsOf (drawnAt s j)) h1
    exact .inr (.inr ⟨hn, hs, _, hlow, hhigh, response_respond _ _ _⟩)

/-- Settles O22: the check's error is raised on the latched state, and BOUNDED's other responses have another status. -/
theorem boundedArgumentCheck : Obligations.BoundedArgumentCheck := by
  unfold Obligations.BoundedArgumentCheck
  refine ⟨fun arg s h => ?_, fun arg s t h ht d hd => ?_, by decide⟩
  · exact ⟨_, exec_bounded_of_le_one h s, response_raise _ _, (arch_raise _ _).trans (arch_latch _ _ _)⟩
  · rcases response_bounded_cases ht with ⟨hle, -⟩ | ⟨-, -, hr⟩ | ⟨-, -, m, -, -, hr⟩
    · exact absurd h (not_lt.mpr hle)
    · cases hd.symm.trans hr
    · cases hd.symm.trans hr

/-- Settles O27: of BOUNDED's responses only the one in range is OK. -/
theorem boundedRangeLaw : Obligations.BoundedRangeLaw := by
  unfold Obligations.BoundedRangeLaw
  intro arg s t r ht hr
  rcases response_bounded_cases ht with ⟨-, he⟩ | ⟨-, -, he⟩ | ⟨hn, -, m, hlow, hhigh, he⟩
  · cases hr.symm.trans he
  · cases hr.symm.trans he
  · cases hr.symm.trans he
    obtain ⟨-, hmax, hs⟩ := toNat_of_one_lt_sint32 hn
    rw [toNat_ofNat_of_le (hhigh.trans hmax)]
    omega

/-! ### Case A and Case B -/

/-- The draws of a command are those of the state it was issued in: latching it does not show. -/
theorem arch_answered (op : Opcode) (arg : Word) (st : Status) (d : Word) (k : Nat) (s : State) :
    arch (respond st d (drawTimes k (latch op arg s))) = arch (drawTimes k s) :=
  (arch_respond st d _).trans (arch_drawTimes k (arch_latch op arg s))

/-- A power of two in the signed range as a bound. -/
theorem toNat_two_pow {k : Nat} (hk : k ≤ 30) : (BitVec.ofNat 32 (2 ^ k)).toNat = 2 ^ k ∧ 2 ^ k ≤ 2147483647 := by
  have hle : 2 ^ k ≤ 2 ^ 30 := Nat.pow_le_pow_right (by decide) hk
  have hmax : 2 ^ k ≤ 2147483647 := by omega
  exact ⟨toNat_ofNat_of_le hmax, hmax⟩

/-- Settles O24: a power of two takes Case A, whose quotient is a shift of the word. -/
theorem boundedPowerOfTwoResult : Obligations.BoundedPowerOfTwoResult := by
  unfold Obligations.BoundedPowerOfTwoResult
  refine ⟨fun k s h1 h30 hs => ?_, by decide⟩
  obtain ⟨harg, hmax⟩ := toNat_two_pow h30
  have h2 : 2 ^ 1 ≤ 2 ^ k := Nat.pow_le_pow_right (by decide) h1
  have hn : 1 < sint32 (BitVec.ofNat 32 (2 ^ k)) := by
    rw [sint32_of_toNat_le (by omega), harg]
    omega
  rcases exec_bounded_draws hn hs with ⟨-, he⟩ | ⟨hp, -⟩
  · obtain ⟨hlow, hhigh⟩ := caseA_range (n := 2 ^ k) (by omega) (bitsOf_lt (drawnAt s 0))
    have htop := caseA_two_pow (bitsOf (drawnAt s 0)) h30
    refine ⟨_, _, he, response_respond _ _ _, ?_⟩
    rw [harg, toNat_ofNat_of_le (by omega)]
    exact ⟨rfl, htop, htop.trans (by rw [bitsOf_div_two_pow _ h30]), hlow, hhigh, arch_answered _ _ _ _ 1 s⟩
  · exact absurd ⟨k, harg⟩ hp

/-- Settles O25: a loop accepts at one place, so the word it answers with is the one named. -/
theorem boundedRejectionResult : Obligations.BoundedRejectionResult := by
  unfold Obligations.BoundedRejectionResult
  intro arg j s hn hp hs hf
  obtain ⟨h2, hmax, -⟩ := toNat_of_one_lt_sint32 hn
  rcases exec_bounded_draws hn hs with ⟨hpow, -⟩ | ⟨-, i, hi, he⟩
  · exact absurd hpow hp
  · obtain rfl : i = j := firstAccepted_unique hi hf
    obtain ⟨-, hhigh⟩ := caseB_range (bitsOf (drawnAt s i)) (show 1 ≤ arg.toNat by omega)
    refine ⟨_, _, he, response_respond _ _ _, ?_, arch_answered _ _ _ _ (i + 1) s⟩
    rw [toNat_ofNat_of_le (hhigh.trans hmax), caseB]

end Sys2Proof.Machine
end

section
/-!
PROOFS. The family of 44_sequencer.md: the rows of the sequencer's tables (R272, R274, R276 to R279, R287), the writers of
the cursor (R280), and the run of a whole command edge by edge (R283).
-/

namespace Sys2Proof.Machine

/-! ### The checks of an accepted command -/

/-- The checks of R274 as its table writes them, on the opcode's bits and the signed bound. -/
theorem commandError_rows (op : Opcode) (arg : Word) (seeded : Bool) : commandError op arg seeded =
    if op = 0b000#3 ∨ op = 0b101#3 ∨ op = 0b110#3 ∨ op = 0b111#3 then some .illegalOp
    else if op = 0b100#3 ∧ sint32 arg ≤ 1 then some .invalidArgument
    else if (op = 0b010#3 ∨ op = 0b011#3 ∨ op = 0b100#3) ∧ seeded = false then some .notSeeded
    else none := by
  simp [commandError, reservedOp, isDrawOp, badBound_eq_true, or_assoc]

/-- A draw command that passes its checks, by opcode. -/
theorem drawCommand_cases {op : Opcode} {arg : Word} (h : drawCommand op arg = true) :
    op = opWord ∨ op = opBool ∨ op = opBounded ∧ badBound arg = false := by
  simpa [drawCommand, or_assoc] using h

/-- A draw command is not SEED. -/
theorem drawCommand_ne_seed {op : Opcode} {arg : Word} (h : drawCommand op arg = true) : op ≠ opSeed := by
  rintro rfl
  rcases drawCommand_cases h with ho | ho | ⟨ho, -⟩ <;> exact absurd ho (by decide)

/-- POST of BOUNDED with a bound that passed its check (R278). -/
theorem postEdge_bounded {s : State} (ho : s.opR = opBounded) (hb : badBound s.argR = false) :
    postEdge s = .next (postBounded s) := by
  rw [postEdge, if_neg (by rw [ho]; decide), if_neg (by rw [ho]; decide), if_pos ⟨ho, hb⟩]

/-- Outside IDLE a move reads no pin but `rsp_ready`. -/
theorem runEdge_congr {p q : Pins} {s : State} (hf : s.fsm ≠ .idle) (h : p.rspReady = q.rspReady) :
    runEdge p s = runEdge q s := by
  cases hs : s.fsm with
  | idle => exact absurd hs hf
  | seed => rw [runEdge_seed p hs, runEdge_seed q hs]
  | draw => rw [runEdge_draw p hs, runEdge_draw q hs]
  | twist => rw [runEdge_twist p hs, runEdge_twist q hs]
  | post => rw [runEdge_post p hs, runEdge_post q hs]
  | resp => rw [runEdge_resp p hs, runEdge_resp q hs, respEdge, respEdge, h]
  | unused6 => rw [runEdge_unused p (.inl hs), runEdge_unused q (.inl hs)]
  | unused7 => rw [runEdge_unused p (.inr hs), runEdge_unused q (.inr hs)]

/-- The edge at which the host takes a response (R279). -/
theorem edge_taken {p : Pins} {s : State} (hr : p.rst = false) (hw : s.wasReset = true) (hf : s.fsm = .resp)
    (hv : p.rspReady = true) : edge p s = .next { s with fsm := .idle } := by
  rw [edge_of_run hr hw, runEdge_resp p hf, respEdge, if_pos hv]

/-- The edge at which a command is accepted (R274). -/
theorem edge_accept {p : Pins} {s : State} (hr : p.rst = false) (hw : s.wasReset = true) (hf : s.fsm = .idle)
    (hv : p.cmdValid = true) : edge p s = .next (acceptEdge p.cmdOp p.cmdArg s) := by
  rw [edge_of_run hr hw, runEdge_idle p hf, idleEdge, if_pos hv]

/-! ### The runs of a draw command -/

/-- The state with the sequencer in another state: how POST is entered and left, every other register kept. -/
def enter (f : Fsm) (s : State) : State := { s with fsm := f }

@[simp] theorem enter_fsm (f : Fsm) (s : State) : (enter f s).fsm = f := rfl

/-- The sequencer state is no part of the architectural state. -/
theorem arch_enter (f : Fsm) (s : State) : arch (enter f s) = arch s := rfl

/-- A response overwrites the sequencer state. -/
@[simp] theorem respond_enter (st : Status) (d : Word) (f : Fsm) (s : State) :
    respond st d (enter f s) = respond st d s := rfl

/-- Entering the state the sequencer is in. -/
theorem enter_self {f : Fsm} {s : State} (h : s.fsm = f) : enter f s = s := by
  subst h
  rfl

/-- A draw neither reads nor writes the sequencer state. -/
theorem draw_enter (f : Fsm) (s : State) : draw (enter f s) = enter f (draw s) := by
  rcases Nat.lt_or_ge s.idx.toNat 624 with hx | hx
  · rw [draw_of_lt hx, draw_of_lt (s := enter f s) hx]
    rfl
  · rw [draw_of_ge hx, draw_of_ge (s := enter f s) hx]
    rfl

/-- Neither do repeated draws. -/
theorem drawTimes_enter (f : Fsm) (k : Nat) (s : State) : drawTimes k (enter f s) = enter f (drawTimes k s) := by
  induction k generalizing s with
  | zero => rfl
  | succ k ih => rw [drawTimes, draw_enter, ih, drawTimes]

/-- One pass through DRAW and POST: two edges, and 625 more when it regenerates (R276 to R278, R284). -/
theorem pass_runs {s t : State} (hw : s.wasReset = true) (hf : s.fsm = .draw)
    (hp : postEdge (enter .post (draw s)) = .next t) : Busy (2 + 625 * regensIn 1 s) s t := by
  have count : (if exhausted s then 625 else 0) + 1 + 1 = 2 + 625 * regensIn 1 s := by
    rw [regensIn, regensIn]
    split <;> rfl
  have drawn : Busy ((if exhausted s then 625 else 0) + 1) s (enter .post (draw s)) := draw_runs hw hf
  obtain ⟨-, -, -, -, -, -, -, hwd, -⟩ := draw_frame s
  rw [← count]
  refine drawn.back (by simp) (by simp) fun p hr => ?_
  rw [edge_of_run hr (s := enter .post (draw s)) (hwd.trans hw), runEdge_post p rfl, hp]

/-- The rejection loop of BOUNDED: one pass per word drawn, up to and with the first accepted one (43_bounded.md R244). -/
theorem rejection_runs {n : Word} {j : Nat} {s : State} (hw : s.wasReset = true) (hf : s.fsm = .draw)
    (ho : s.opR = opBounded) (hn : s.argR = n) (hb : badBound n = false) (hk : ¬∃ k, n.toNat = 2 ^ k)
    (hj : FirstAccepted n.toNat j s) :
    Busy (2 * (1 + j) + 625 * regensIn (j + 1) s) s
      (respond .ok (BitVec.ofNat 32 (caseB n.toNat (bitsOf (drawnAt s j)))) (drawTimes (j + 1) s)) := by
  induction j generalizing s with
  | zero =>
    obtain ⟨-, -, -, hod, hnd, -⟩ := draw_frame s
    obtain ⟨-, accepted⟩ := hj
    refine pass_runs hw hf ?_
    rw [postEdge_caseB (s := enter .post (draw s)) (hod.trans ho) (hnd.trans hn) hb hk]
    exact congrArg Host.Outcome.next (if_pos accepted)
  | succ j ih =>
    obtain ⟨-, hfd, -, hod, hnd, -, -, hwd, -⟩ := draw_frame s
    obtain ⟨rejected, accepted⟩ := hj
    have first : Busy (2 + 625 * regensIn 1 s) s (draw s) := by
      refine pass_runs hw hf ?_
      rw [postEdge_caseB (s := enter .post (draw s)) (hod.trans ho) (hnd.trans hn) hb hk]
      refine congrArg Host.Outcome.next ((if_neg ?_).trans (enter_self (hfd.trans hf)))
      exact ne_true_of_eq_false (rejected 0 (Nat.succ_pos j))
    have rest := ih (hwd.trans hw) (hfd.trans hf) (hod.trans ho) (hnd.trans hn)
      ⟨fun i hi => rejected (i + 1) (Nat.succ_lt_succ hi), accepted⟩
    have count : 2 + 625 * regensIn 1 s + (2 * (1 + j) + 625 * regensIn (j + 1) (draw s)) =
        2 * (1 + (j + 1)) + 625 * regensIn (j + 1 + 1) s := by
      simp only [regensIn]
      omega
    rw [← count]
    exact first.trans rest

/-- A draw command that passes its checks runs from DRAW to its answer, one pass per word it takes (R278). -/
theorem DrawAnswer.runs {op : Opcode} {arg : Word} {s t : State} (h : DrawAnswer op arg s t) (hw : s.wasReset = true) :
    ∃ n, Busy n (enter .draw (latch op arg s)) t := by
  have same : arch (enter .draw (latch op arg s)) = arch s := (arch_enter _ _).trans (arch_latch op arg s)
  obtain ⟨-, -, -, hod, hnd, -⟩ := draw_frame (enter .draw (latch op arg s))
  have ends : ∀ d k, respond .ok d (drawTimes k (latch op arg s)) =
      respond .ok d (drawTimes k (enter .draw (latch op arg s))) := fun d k => by rw [drawTimes_enter, respond_enter]
  cases h with
  | word ho ht =>
    rw [ht, ← arch_drawnAt 0 same]
    exact ⟨_, pass_runs hw rfl ((postEdge_word (hod.trans ho)).trans (congrArg _ (ends _ 1).symm))⟩
  | bool ho ht =>
    rw [ht, ← arch_drawnAt 0 same]
    exact ⟨_, pass_runs hw rfl ((postEdge_bool (hod.trans ho)).trans (congrArg _ (ends _ 1).symm))⟩
  | caseA ho hb hk ht =>
    rw [ht, ← arch_drawnAt 0 same]
    exact ⟨_, pass_runs hw rfl ((postEdge_caseA (hod.trans ho) hnd hb hk).trans (congrArg _ (ends _ 1).symm))⟩
  | caseB ho hb hk j hj hf ht =>
    rw [ht, ← arch_drawnAt j same, ends]
    exact ⟨_, rejection_runs hw rfl ho rfl hb hk (arch_firstAccepted same.symm hf)⟩

/-- The answer of a draw command is presented. -/
theorem DrawAnswer.fsm_resp {op : Opcode} {arg : Word} {s t : State} (h : DrawAnswer op arg s t) : t.fsm = .resp := by
  by_contra hf
  have hok := h.isOk_response
  rw [response, if_neg hf] at hok
  cases hok

/-! ### The run of a whole command -/

/-- Once reset, a block stays reset. -/
theorem edge_wasReset {p : Pins} {s t : State} (h : edge p s = .next t) : t.wasReset = true := by
  cases edgeTo_of_edge h with
  | reset _ ht => rw [ht]; rfl
  | _ => subst_vars; assumption

/-- A run ends in a block that has been reset if it starts in one. -/
theorem Busy.wasReset {n : Nat} {s t : State} (h : Busy n s t) (hw : s.wasReset = true) : t.wasReset = true := by
  induction h with
  | done => exact hw
  | front _ _ he _ ih => exact ih (edge_wasReset (he quietPins rfl))

/-- A command accepted in IDLE runs edge by edge to the state its transaction gives, and that state presents the response. -/
theorem command_runs (op : Opcode) (arg : Word) {s : State} (hw : s.wasReset = true) :
    ∃ t n, transact op arg s = .next t ∧ Busy n (acceptEdge op arg s) t ∧ t.fsm = .resp := by
  obtain ⟨t, ht, hc⟩ := transact_cases op arg s
  rcases hc with ⟨rfl, -, rfl⟩ | ⟨-, e, he, -, rfl⟩ | ⟨hn, -, he, hd⟩
  · refine ⟨_, 623, ht, ?_, rfl⟩
    rw [acceptEdge_seed]
    exact seed_runs arg hw
  · refine ⟨_, 0, ht, ?_, rfl⟩
    rw [acceptEdge_error he]
    exact .done _
  · obtain ⟨n, hb⟩ := hd.runs hw
    refine ⟨t, n, ht, ?_, hd.fsm_resp⟩
    rw [acceptEdge_draw he hn]
    exact hb

/-- Settles O38: the accepting edge starts a run that ends in the transaction's own state, and taking the response moves
only the sequencer state. -/
theorem sequencerConforms : Obligations.SequencerConforms := by
  unfold Obligations.SequencerConforms
  intro p s hw hf hr hv
  obtain ⟨t, k, ht, hb, hresp⟩ := command_runs p.cmdOp p.cmdArg hw
  have accepted := edge_accept hr hw hf hv
  have reset : t.wasReset = true := hb.wasReset (edge_wasReset accepted)
  refine ⟨t, k, ht, fun ps hl hq => ?_⟩
  obtain ⟨u, hu, hend, -⟩ := hb.edges ps hl.le hq
  obtain rfl : u = t := hend hl
  refine ⟨u, ?_, hresp, rfl, fun q hqr hqv => ⟨_, edge_taken hqr reset hresp hqv, rfl, rfl⟩⟩
  rw [edges, accepted]
  exact hu

/-! ### The cursor -/

/-- The comparator of R280 on the cursor's upper six bits. -/
theorem exhausted_iff_top_bits (i : Idx) : 624 ≤ i.toNat ↔ 39 ≤ (i.extractLsb' 4 6).toNat := by
  have := i.isLt
  rw [BitVec.extractLsb'_toNat, Nat.shiftRight_eq_div_pow]
  omega

/-- Settles O46: row by row of the sequencer's tables, only reset, SEED's acceptance, a draw and the last twist step name
the cursor. -/
theorem cursorWriters : Obligations.CursorWriters := by
  unfold Obligations.CursorWriters
  refine ⟨exhausted_iff_top_bits, fun p s t h => ?_⟩
  cases edgeTo_of_edge h with
  | reset hr ht => simp [hr, ht]
  | wait hr hw hf hv ht => simp [hr, hf, hv, ht]
  | error e hr hw hf hv ho he ht => simp [hr, hf, ho, ht]
  | seed hr hw hf hv ho ht => simp [hr, hf, hv, ho, ht, seedingAt]
  | accept hr hw hf hv ho hs ht => simp [hr, hf, drawCommand_ne_seed ho, ht]
  | seeding hr hw hf hc ht => simp [hr, hf, ht]
  | seedDone hr hw hf hc ht => simp [hr, hf, ht]
  | exhaust hr hw hf hx ht => simp [hr, hf, hx, ht]
  | take hr hw hf hx ht => simp [hr, hf, hx, ht]
  | twisting hr hw hf hc ht => simp [hr, hf, hc.ne, ht]
  | twistDone hr hw hf hc ht => simp [hr, hf, hc, ht]
  | result d hr hw hf ho ht => simp [hr, hf, ht]
  | reject hr hw hf ho hb hk hx ht => simp [hr, hf, ht]
  | hold hr hw hf hv ht => simp [hr, hf, ht]
  | taken hr hw hf hv ht => simp [hr, hf, ht]
  | upset hr hw hf ht => rcases hf with hf | hf <;> simp [hr, hf, ht]

/-! ### The sequencer's tables -/

/-- Settles O40: the checks as the table writes them decide the row. -/
theorem idleTransitions : Obligations.IdleTransitions := by
  unfold Obligations.IdleTransitions
  intro p s hw hf hr
  constructor
  · intro hv
    rw [edge_of_run hr hw, runEdge_idle p hf, idleEdge, if_neg (by simp [hv])]
  · intro hv
    have checks := commandError_rows p.cmdOp p.cmdArg s.seeded
    rw [edge_accept hr hw hf hv]
    split_ifs at checks ⊢ with reserved bound unseeded isSeed
    · exact congrArg Host.Outcome.next (acceptEdge_error checks)
    · exact congrArg Host.Outcome.next (acceptEdge_error checks)
    · exact congrArg Host.Outcome.next (acceptEdge_error checks)
    · rw [isSeed]
      rfl
    · exact congrArg Host.Outcome.next (acceptEdge_draw checks isSeed)

/-- Settles O42: DRAW's test, and TWIST's step with its indices taken mod N. -/
theorem drawAndTwistTransitions : Obligations.DrawAndTwistTransitions := by
  unfold Obligations.DrawAndTwistTransitions
  intro p s hw hr
  refine ⟨fun hf => ?_, fun hf hc => ?_, fun hf hc => ?_⟩
  · rw [edge_of_run hr hw, runEdge_draw p hf, drawEdge]
    simp only [exhausted_iff]
    rfl
  · rw [edge_of_run hr hw, runEdge_twist p hf, twistEdge, if_neg (by omega), if_neg hc.ne, twistStep, readWord_mod]
  · rw [edge_of_run hr hw, runEdge_twist p hf, twistEdge, if_neg (by omega), if_pos hc, hc, twistStep_last]

/-- Settles O43: the invariant leaves three commands, each with its row. -/
theorem postTransitions : Obligations.PostTransitions := by
  unfold Obligations.PostTransitions
  intro p s hi hf hr
  obtain ⟨hd, -⟩ := hi.inPost hf
  rw [edge_of_run hr hi.reset, runEdge_post p hf]
  rcases drawCommand_cases hd with ho | ho | ⟨ho, hb⟩
  · exact .inl ⟨ho, postEdge_word ho⟩
  · exact .inr (.inl ⟨ho, postEdge_bool ho⟩)
  · obtain ⟨-, h2, -, hn⟩ := boundNat_spec hb
    exact .inr (.inr ⟨ho, boundNat s.argR, hn, h2, postEdge_bounded ho hb⟩)

/-- Settles O44: outside IDLE no row reads the command port, and reset comes before every row. -/
theorem busyIgnoresCommandPort : Obligations.BusyIgnoresCommandPort := by
  unfold Obligations.BusyIgnoresCommandPort
  intro p q s
  refine ⟨by rw [cmdReady, decide_eq_true_iff], fun hf hr hv => ?_, fun hr => ⟨edge_of_rst hr s, ?_⟩⟩
  · rw [edge, edge, hr, runEdge_congr hf hv]
  · simp [accepting, hr]

/-- Settles O45: RESP reads `rsp_ready` alone. -/
theorem responseHeldUntilTaken : Obligations.ResponseHeldUntilTaken := by
  unfold Obligations.ResponseHeldUntilTaken
  intro p s hw hf hr
  refine ⟨fun hv => ?_, edge_taken hr hw hf⟩
  rw [edge_of_run hr hw, runEdge_resp p hf, respEdge, if_neg (by simp [hv])]

/-- Settles O49: an unused encoding has one row, and no row's next state is one. -/
theorem unusedEncodingRecovers : Obligations.UnusedEncodingRecovers := by
  unfold Obligations.UnusedEncodingRecovers
  refine ⟨fun p s hw hr hf => ?_, fun p s t h => ?_⟩
  · exact ⟨_, (edge_of_run hr hw).trans (runEdge_unused p hf), rfl, rfl⟩
  · cases edgeTo_of_edge h with
    | reset hr ht => simp [ht]
    | wait hr hw hf hv ht => simp [hf, ht]
    | error e hr hw hf hv ho he ht => simp [ht]
    | seed hr hw hf hv ho ht => simp [ht]
    | accept hr hw hf hv ho hs ht => simp [ht]
    | seeding hr hw hf hc ht => simp [hf, ht]
    | seedDone hr hw hf hc ht => simp [ht]
    | exhaust hr hw hf hx ht => simp [ht]
    | take hr hw hf hx ht => simp [ht]
    | twisting hr hw hf hc ht => simp [hf, ht]
    | twistDone hr hw hf hc ht => simp [ht]
    | result d hr hw hf ho ht => simp [ht]
    | reject hr hw hf ho hb hk hx ht => simp [ht]
    | hold hr hw hf hv ht => simp [hf, ht]
    | taken hr hw hf hv ht => simp [ht]
    | upset hr hw hf ht => simp [ht]

end Sys2Proof.Machine
end

section
/-!
PROOFS. The family of 60_exceptions.md: which error a command reports and that it has no effect (R314, R315), and that error
commands inserted into a stream change none of its OK responses (R326).
-/

namespace Sys2Proof.Machine

/-! ### The error of one command -/

/-- An opcode that is neither reserved nor SEED's is that of a draw command (R104, R105). -/
theorem ne_seed_iff_draw : ∀ op : Opcode, ¬(op = 0b000#3 ∨ op = 0b101#3 ∨ op = 0b110#3 ∨ op = 0b111#3) →
    (op ≠ opSeed ↔ op = opWord ∨ op = opBool ∨ op = opBounded) := by
  decide

/-- An OK response is one with status OK and some data. -/
theorem isOk_iff {r : Option (Status × Word)} : isOk r = true ↔ ∃ d, r = some (.ok, d) := by
  constructor
  · intro h
    match r, h with
    | some (.ok, d), _ => exact ⟨d, rfl⟩
  · rintro ⟨d, rfl⟩
    rfl

/-- A command whose check fails answers that error, precisely; any other answers OK (R310, R315). -/
theorem transact_by_commandError (op : Opcode) (arg : Word) (s : State) : ∃ t, transact op arg s = .next t ∧
    (∀ e, commandError op arg s.seeded = some e → response t = some (e, 0#32) ∧ arch t = arch s) ∧
    (commandError op arg s.seeded = none → ∃ d, response t = some (.ok, d)) := by
  obtain ⟨t, ht, hc⟩ := transact_cases op arg s
  refine ⟨t, ht, ?_⟩
  rcases hc with ⟨-, hnone, rfl⟩ | ⟨-, e, he, -, rfl⟩ | ⟨-, -, hnone, hd⟩
  · rw [hnone]
    exact ⟨nofun, fun _ => ⟨0#32, rfl⟩⟩
  · rw [he]
    refine ⟨?_, nofun⟩
    rintro _ ⟨⟩
    exact ⟨response_raise e _, (arch_raise e _).trans (arch_latch op arg s)⟩
  · rw [hnone]
    exact ⟨nofun, fun _ => isOk_iff.mp hd.isOk_response⟩

/-- Settles O32: the checks' table decides between the errors, and past the reserved opcodes its draw commands are those
other than SEED. -/
theorem errorPriorityAndPrecision : Obligations.ErrorPriorityAndPrecision := by
  unfold Obligations.ErrorPriorityAndPrecision
  intro op arg s
  obtain ⟨t, ht, error, ok⟩ := transact_by_commandError op arg s
  rw [commandError_rows] at error ok
  refine ⟨t, ht, ?_⟩
  split
  · next hr => exact error _ (if_pos hr)
  · next hr =>
    rw [if_neg hr] at error ok
    split
    · next hb => exact error _ (if_pos hb)
    · next hb =>
      rw [if_neg hb] at error ok
      have hd := ne_seed_iff_draw op hr
      split
      · next hs => exact error _ (if_pos (hs.imp_left hd.mp))
      · next hs => exact ok (if_neg fun hu => hs (hu.imp_left hd.mpr))

/-! ### Errors in a stream -/

/-- The responses of two streams one after the other: the second starts where the first ends. -/
theorem responses_append (cs ds : List (Opcode × Word)) (s : State) :
    responses (cs ++ ds) s = responses cs s ++ responses ds (afterStream cs s) := by
  induction cs generalizing s with
  | nil => rfl
  | cons c cs ih => exact congrArg (response (afterCommand c.1 c.2 s) :: ·) (ih _)

/-- A stream with no OK response leaves the architectural state alone (R315). -/
theorem arch_afterStream_of_no_ok {cs : List (Opcode × Word)} {s : State} (h : ∀ r ∈ responses cs s, isOk r = false) :
    arch (afterStream cs s) = arch s := by
  induction cs generalizing s with
  | nil => rfl
  | cons c cs ih =>
    obtain ⟨first, rest⟩ := List.forall_mem_cons.mp h
    calc arch (afterStream (c :: cs) s) = arch (afterCommand c.1 c.2 s) := ih rest
      _ = arch s := arch_afterCommand_of_not_ok first

/-- Settles O33: the errors answer no OK themselves, and the rest of the stream starts from the architectural state it
would have started from without them. -/
theorem errorsChangeNoOkResponse : Obligations.ErrorsChangeNoOkResponse := by
  unfold Obligations.ErrorsChangeNoOkResponse
  intro before errors after s h
  have hnone : (responses errors (afterStream before s)).filter isOk = [] :=
    List.filter_eq_nil_iff.mpr fun r hr => by simp [h r hr]
  have hafter : responses after (afterStream errors (afterStream before s)) = responses after (afterStream before s) :=
    responses_eq_of_arch after (arch_afterStream_of_no_ok h)
  rw [List.append_assoc, responses_append before, responses_append errors, responses_append before, hafter,
    List.filter_append, List.filter_append, hnone, List.nil_append, ← List.filter_append]

end Sys2Proof.Machine
end

section
/-!
PROOFS. The family of 70_reset_and_hazards.md: what an edge with `rst = 1` does (R350), and that a reset during a command aborts
it and leaves an unseeded block, on which nothing but SEED ends OK (R351).
-/

namespace Sys2Proof.Machine

/-- Settles O51: such an edge is `resetEdge`, whatever the other pins. -/
theorem resetEdgeEffect : Obligations.ResetEdgeEffect := by
  unfold Obligations.ResetEdgeEffect
  intro p s hr
  exact ⟨resetEdge s, edge_of_rst hr s, by simp⟩

/-! ### An unseeded block -/

/-- A reset block presents no response. -/
theorem response_resetEdge (s : State) : response (resetEdge s) = none := rfl

/-- A command whose check fails answers that error (60_exceptions.md R315). -/
theorem response_afterCommand_of_error {op : Opcode} {arg : Word} {s : State} {e : Status}
    (he : commandError op arg s.seeded = some e) : response (afterCommand op arg s) = some (e, 0#32) := by
  obtain ⟨t, ht, error, -⟩ := transact_by_commandError op arg s
  obtain ⟨hresp, -⟩ := error e he
  rw [afterCommand, ht]
  exact hresp

/-- A draw command's only failing check on an unseeded block is the flag. -/
theorem commandError_draw_unseeded {op : Opcode} {arg : Word} (h : drawCommand op arg = true) :
    commandError op arg false = some .notSeeded := by
  rcases drawCommand_cases h with rfl | rfl | ⟨rfl, hb⟩
  · exact commandError_word arg false
  · exact commandError_bool arg false
  · rw [commandError_bounded, hb]
    rfl

/-- So an unseeded block answers NOT_SEEDED to every draw command (10_state.md R33). -/
theorem response_draw_unseeded {op : Opcode} {arg : Word} {s : State} (h : drawCommand op arg = true)
    (hs : s.seeded = false) : response (afterCommand op arg s) = some (.notSeeded, 0#32) :=
  response_afterCommand_of_error (hs ▸ commandError_draw_unseeded h)

/-- On an unseeded block no command but SEED ends OK. -/
theorem not_ok_unseeded {op : Opcode} {arg : Word} {s : State} (ho : op ≠ opSeed) (hs : s.seeded = false) :
    isOk (response (afterCommand op arg s)) = false := by
  obtain ⟨-, -, ⟨hseed, -⟩ | ⟨-, e, he, hne, -⟩ | ⟨-, hseeded, -⟩⟩ := transact_cases op arg s
  · exact absurd hseed ho
  · rw [response_afterCommand_of_error he]
    cases e with
    | ok => exact absurd rfl hne
    | _ => rfl
  · cases hs.symm.trans hseeded

/-- So a stream without SEED has no OK response: its first command is an error and leaves the block unseeded. -/
theorem responses_not_ok_unseeded {cs : List (Opcode × Word)} {s : State} (hcs : ∀ c ∈ cs, c.1 ≠ opSeed)
    (hs : s.seeded = false) : ∀ r ∈ responses cs s, isOk r = false := by
  induction cs generalizing s with
  | nil => exact nofun
  | cons c cs ih =>
    obtain ⟨hc, hrest⟩ := List.forall_mem_cons.mp hcs
    have hfirst : isOk (response (afterCommand c.1 c.2 s)) = false := not_ok_unseeded hc hs
    obtain ⟨-, -, hseeded⟩ := arch_inj (arch_afterCommand_of_not_ok hfirst)
    exact List.forall_mem_cons.mpr ⟨hfirst, ih hrest (hseeded.trans hs)⟩

/-- And it leaves the block unseeded. -/
theorem afterStream_unseeded {cs : List (Opcode × Word)} {s : State} (hcs : ∀ c ∈ cs, c.1 ≠ opSeed)
    (hs : s.seeded = false) : (afterStream cs s).seeded = false := by
  obtain ⟨-, -, hseeded⟩ := arch_inj (arch_afterStream_of_no_ok (responses_not_ok_unseeded hcs hs))
  exact hseeded.trans hs

/-- Settles O52: the reset leaves an unseeded block, a stream without SEED keeps it so, and SEED's vector does not depend on
what the aborted command had written. -/
theorem resetAbortsCommand : Obligations.ResetAbortsCommand := by
  unfold Obligations.ResetAbortsCommand
  intro p s t hr _ ht
  obtain rfl : resetEdge s = t := Host.Outcome.next.inj ((edge_of_rst hr s).symm.trans ht)
  refine ⟨response_resetEdge s, resetEdge_seeded s, resetEdge_mt s, fun cs hcs => ?_⟩
  have hs : (afterStream cs (resetEdge s)).seeded = false := afterStream_unseeded hcs (resetEdge_seeded s)
  refine ⟨responses_not_ok_unseeded hcs (resetEdge_seeded s), fun x => response_draw_unseeded rfl hs,
    fun x => response_draw_unseeded rfl hs, fun n hn => response_draw_unseeded ?_ hs, fun a u hu => ?_⟩
  · simp [drawCommand, badBound_eq_false.mpr hn]
  · obtain rfl : afterSeed a _ = u := Host.Outcome.next.inj ((exec_seed a _).symm.trans hu)
    exact afterSeed_mt a _

end Sys2Proof.Machine
end

section
/-!
PROOFS. Encoding and the assembler (30_encoding.md): decode and encode agree (R102, R104, R117), and the assembler's
operands, its pseudo-instruction and its agreement with the disassembler (R113 to R115).
-/

namespace Sys2Proof.Machine

/-! ### Decode and encode -/

/-- Decoding the word of a command gives the command back. -/
theorem decode_encode (i : Instr) : decode (encode i) = .ok i := by
  rw [encode, decode_make]
  cases i with
  | seed => rfl
  | word => rfl
  | bool => rfl
  | bounded => rfl

/-- A command read off the ports has their opcode and argument. -/
theorem fields_of_decodePorts {op : Opcode} {arg : Word} {i : Instr} (h : decodePorts op arg = .ok i) :
    opcodeOf i = op ∧ argumentOf i = arg := by
  rcases decodePorts_cases op arg with ⟨rfl, hd⟩ | ⟨rfl, hd⟩ | ⟨rfl, hd⟩ | ⟨rfl, hd⟩ | ⟨-, hd⟩
  all_goals cases h.symm.trans hd
  all_goals exact ⟨rfl, rfl⟩

/-- The decoding error names the opcode on the ports, a reserved one. -/
theorem reserved_of_decodePorts {op e : Opcode} {arg : Word} (h : decodePorts op arg = .error (.illegalOp e)) :
    e = op ∧ reservedOp op = true := by
  rcases decodePorts_cases op arg with ⟨-, hd⟩ | ⟨-, hd⟩ | ⟨-, hd⟩ | ⟨-, hd⟩ | ⟨hr, hd⟩
  all_goals cases h.symm.trans hd
  exact ⟨rfl, hr⟩

/-- Settles O2: a decoded command has the fields of the word it was read from, and those make up the word. -/
theorem encodeDecodeRoundTrip : Obligations.EncodeDecodeRoundTrip := by
  unfold Obligations.EncodeDecodeRoundTrip
  refine ⟨fun i _ => decode_encode i, fun cw i h => ?_, fun cw op h => ?_⟩
  · obtain ⟨hop, harg⟩ := fields_of_decodePorts h
    rw [encode, hop, harg, Command.make_fields]
  · obtain ⟨rfl, hr⟩ := reserved_of_decodePorts h
    exact ⟨rfl, hr⟩

/-! ### The assembler's operands -/

/-- An operand mod 2^32 (R113, 40_seed.md R148). -/
theorem truncate32_toNat (v : Int) : ((truncate32 v).toNat : Int) = v % 4294967296 := by
  rw [truncate32, BitVec.toNat_ofInt]
  omega

/-- A number that fits in 32 bits is kept. -/
theorem truncate32_natCast (w : Word) : truncate32 (w.toNat : Int) = w := by
  rw [truncate32, BitVec.ofInt_natCast, BitVec.ofNat_toNat, BitVec.setWidth_eq]

/-- A signed value comes back from its 32 bits. -/
theorem sint32_truncate32 {v : Int} (h : -2147483648 ≤ v ∧ v ≤ 2147483647) : sint32 (truncate32 v) = v := by
  have hmod := truncate32_toNat v
  rw [sint32]
  split <;> omega

/-- The signed value of a word is in the signed range, and its 32 bits are the word. -/
theorem truncate32_sint32 (w : Word) : (-2147483648 ≤ sint32 w ∧ sint32 w ≤ 2147483647) ∧ truncate32 (sint32 w) = w := by
  have hlt := w.isLt
  have hmod := truncate32_toNat (sint32 w)
  have hrange : -2147483648 ≤ sint32 w ∧ sint32 w ≤ 2147483647 := by rw [sint32]; split <;> omega
  refine ⟨hrange, BitVec.eq_of_toNat_eq ?_⟩
  rw [sint32] at hmod ⊢
  split at hmod <;> split <;> omega

/-- A line `BOUNDED v` with an operand in the signed range (R114). -/
theorem assemble_bounded (timeMs : Nat) {v : Int} (h : -2147483648 ≤ v ∧ v ≤ 2147483647) :
    assemble timeMs (.bounded v) = .ok (Command.make opBounded (truncate32 v)) :=
  if_pos (decide_eq_true h)

/-- And with any other. -/
theorem assemble_bounded_error (timeMs : Nat) {v : Int} (h : ¬(-2147483648 ≤ v ∧ v ≤ 2147483647)) :
    assemble timeMs (.bounded v) = .error .boundedRange :=
  if_neg (by simpa [boundedOperandOk] using h)

/-- Settles O5: SEED's operand is truncated, BOUNDED's is checked, and in its range truncation keeps the signed value. -/
theorem assemblerOperandRanges : Obligations.AssemblerOperandRanges := by
  unfold Obligations.AssemblerOperandRanges
  intro timeMs v
  exact ⟨⟨truncate32 v, rfl, truncate32_toNat v⟩,
    fun h => ⟨truncate32 v, assemble_bounded timeMs h, sint32_truncate32 h⟩,
    fun h => ⟨_, assemble_bounded_error timeMs h⟩⟩

/-! ### The disassembler -/

/-- A `.cmd` line with the fields of a word gives the word. -/
theorem assemble_raw_fields (timeMs : Nat) (op : Opcode) (arg : Word) :
    assemble timeMs (.raw op.toNat arg.toNat) = .ok (Command.make op arg) := by
  have hop : rawOpOk op.toNat = true := by have := op.isLt; simp [rawOpOk]; omega
  have harg : rawArgOk arg.toNat = true := by have := arg.isLt; simp [rawArgOk]; omega
  rw [assemble, if_pos hop, if_pos harg, truncate32_natCast, BitVec.ofInt_natCast, BitVec.ofNat_toNat,
    BitVec.setWidth_eq]

/-- The line printed for a word made of an opcode and an argument assembles to it, WORD and BOOL with argument 0. -/
theorem assemble_disassemble_make (timeMs : Nat) (op : Opcode) (arg : Word) :
    assemble timeMs (disassemble (Command.make op arg)) =
      .ok (Command.make op (if op = opWord ∨ op = opBool then 0#32 else arg)) := by
  rw [disassemble, decode_make, Command.arg_make]
  rcases decodePorts_cases op arg with ⟨rfl, h⟩ | ⟨rfl, h⟩ | ⟨rfl, h⟩ | ⟨rfl, h⟩ | ⟨hr, h⟩
  · rw [h, if_neg (by decide)]
    exact congrArg (fun w => Except.ok (Command.make opSeed w)) (truncate32_natCast arg)
  · rw [h, if_pos (by decide)]
    rfl
  · rw [h, if_pos (by decide)]
    rfl
  · obtain ⟨hrange, hkeep⟩ := truncate32_sint32 arg
    rw [h, if_neg (by decide)]
    exact (assemble_bounded timeMs hrange).trans (by rw [hkeep])
  · have hne : ¬(op = opWord ∨ op = opBool) := by rintro (rfl | rfl) <;> cases hr
    rw [h, if_neg hne]
    exact assemble_raw_fields timeMs op arg

/-- Settles O6: a word is made of its fields, and the line printed for them assembles to them. -/
theorem disassemblyReassembles : Obligations.DisassemblyReassembles := by
  unfold Obligations.DisassemblyReassembles
  intro timeMs cw
  have h := assemble_disassemble_make timeMs (Command.op cw) (Command.arg cw)
  rw [Command.make_fields] at h
  rw [h]
  split
  · rfl
  · rw [Command.make_fields]

/-! ### SEED_DEFAULT -/

/-- Integers equal mod 2^32 are the same operand (40_seed.md R148). -/
theorem truncate32_congr {v w : Int} (h : v % 4294967296 = w % 4294967296) : truncate32 v = truncate32 w :=
  BitVec.eq_of_toNat_eq (Int.ofNat_inj.mp (by rw [truncate32_toNat, truncate32_toNat, h]))

/-- SEED_DEFAULT is a SEED of the time, mod 2^32 (R115). -/
theorem assemble_seedDefault (timeMs : Nat) :
    assemble timeMs .seedDefault = .ok (Command.make opSeed (truncate32 timeMs)) := rfl

/-- Settles O7: both lines are a SEED of the truncated time, and truncation sees the time mod 2^32 alone. -/
theorem seedDefaultIsSeedOfTime : Obligations.SeedDefaultIsSeedOfTime := by
  unfold Obligations.SeedDefaultIsSeedOfTime
  intro timeMs
  refine ⟨?_, ⟨_, assemble_seedDefault timeMs, ?_⟩, fun other h => ?_⟩
  · have hw : truncate32 timeMs = truncate32 (timeMs % 4294967296 : Nat) := truncate32_congr (by omega)
    rw [assemble_seedDefault, hw]
    rfl
  · have := truncate32_toNat timeMs
    omega
  · rw [assemble_seedDefault, assemble_seedDefault, truncate32_congr (v := other) (w := timeMs) (by omega)]

end Sys2Proof.Machine
end

section
/-!
PROOFS. The commands one by one: SEED's whole state (40_seed.md R140), WORD and BOOL as one draw and a function of its word
(42_draw.md R204 to R206, 30_encoding.md R108), and what each leaves alone.
-/

namespace Sys2Proof.Machine

/-! ### SEED -/

/-- The seeded vector starts with the seed (40_seed.md R140). -/
theorem readWord_batch_zero (seed : Word) : readWord (batch seed 0) 0 = seed := by
  rw [← seedVec_batch seed (Vector.replicate 624 0#32), seedVec_eq]
  exact readWord_seedTo_zero seed _ (by decide)

/-- Each further word of it is the step of the word before. -/
theorem readWord_batch_succ (seed : Word) {i : Nat} (hi : i + 1 < 624) :
    readWord (batch seed 0) (i + 1) = initStep (readWord (batch seed 0) i) (i + 1) := by
  rw [← seedVec_batch seed (Vector.replicate 624 0#32), seedVec_eq]
  exact readWord_seedTo_succ seed _ (by omega) (by decide)

/-- The only state SEED leaves. -/
theorem eq_afterSeed {arg : Word} {s t : State} (h : exec (.seed arg) s = .next t) : t = afterSeed arg s :=
  Host.Outcome.next.inj (h.symm.trans (exec_seed arg s))

/-- Settles O13: the seeded vector is the chain from the seed. -/
theorem seedResult : Obligations.SeedResult := by
  unfold Obligations.SeedResult
  intro arg s
  refine ⟨_, exec_seed arg s, readWord_batch_zero arg, fun i h1 hi => ?_, rfl, rfl, rfl⟩
  obtain ⟨j, rfl⟩ := Nat.exists_eq_add_of_le' h1
  exact readWord_batch_succ arg (by omega)

/-- Settles O15: what SEED does not write it leaves alone, and what it writes depends on the seed alone. -/
theorem seedIsIdempotent : Obligations.SeedIsIdempotent := by
  unfold Obligations.SeedIsIdempotent
  intro arg s t u ht hu
  rw [eq_afterSeed hu, eq_afterSeed ht]
  rfl

/-- The step of a zero word is its index: the chain leaves zero at once. -/
theorem initStep_zero_one : initStep 0#32 1 = 1#32 := by decide

/-- Settles O16: if word 0 is zero, word 1 is one. -/
theorem seededVectorNotAllZero : Obligations.SeededVectorNotAllZero := by
  unfold Obligations.SeededVectorNotAllZero
  intro arg s t ht
  rw [eq_afterSeed ht, afterSeed_mt]
  by_cases h0 : readWord (batch arg 0) 0 = 0#32
  · refine ⟨1, by decide, ?_⟩
    rw [readWord_batch_succ arg (by decide), h0, initStep_zero_one]
    decide
  · exact ⟨0, by decide, h0⟩

/-- Settles O17: none of these fields but the latched command is written by SEED. -/
theorem seedFrame : Obligations.SeedFrame := by
  unfold Obligations.SeedFrame
  intro arg s t ht
  rw [eq_afterSeed ht]
  simp

/-! ### Commands that take one word -/

/-- `o` is the outcome in `s` of a command that takes one word and answers `f` of it, or is refused for want of a SEED. -/
def AnswersOne (f : Word → Word) (s : State) (o : Host.Outcome State Fault Refusal) : Prop :=
  ∃ t, o = .next t ∧
    ((s.seeded = true ∧ response t = some (.ok, f (drawnAt s 0)) ∧ arch t = arch (draw s)) ∨
      (s.seeded = false ∧ response t = some (.notSeeded, 0#32) ∧ arch t = arch s))

/-- WORD answers the word itself (42_draw.md R205). -/
theorem exec_word_answersOne (x : Word) (s : State) : AnswersOne id s (exec (.word x) s) := by
  rcases exec_word_cases x s with ⟨hs, he⟩ | ⟨hs, he⟩
  · exact ⟨_, he, .inl ⟨hs, response_respond _ _ _, arch_answered opWord x _ _ 1 s⟩⟩
  · exact ⟨_, he, .inr ⟨hs, response_raise _ _, (arch_raise _ _).trans (arch_latch opWord x s)⟩⟩

/-- BOOL answers its bit 31 (42_draw.md R206). -/
theorem exec_bool_answersOne (x : Word) (s : State) :
    AnswersOne (fun w => zext32 (bitOf w 31)) s (exec (.bool x) s) := by
  rcases exec_bool_cases x s with ⟨hs, he⟩ | ⟨hs, he⟩
  · exact ⟨_, he, .inl ⟨hs, response_respond _ _ _, arch_answered opBool x _ _ 1 s⟩⟩
  · exact ⟨_, he, .inr ⟨hs, response_raise _ _, (arch_raise _ _).trans (arch_latch opBool x s)⟩⟩

/-- The first word drawn with words left (42_draw.md R204). -/
theorem drawnAt_zero_of_lt {s : State} (h : s.idx.toNat < 624) :
    drawnAt s 0 = temper (readWord s.mt s.idx.toNat) := by
  rw [drawnAt, drawTimes, drawTimes, draw_of_lt h, takeWord_yR]

/-- The first word drawn by an exhausted engine. -/
theorem drawnAt_zero_of_ge {s : State} (h : 624 ≤ s.idx.toNat) :
    drawnAt s 0 = temper (readWord (twistAll s.mt) 0) := by
  rw [drawnAt, drawTimes, drawTimes, draw_of_ge h, takeWord_yR, regen_mt, regen_idx]
  rfl

/-- The three outcomes of a command that takes one word: words left, exhausted, unseeded (42_draw.md R204). -/
theorem AnswersOne.outcomes {f : Word → Word} {s : State} {o : Host.Outcome State Fault Refusal}
    (h : AnswersOne f s o) :
    (s.seeded = true → s.idx.toNat < 624 → ∃ t, o = .next t ∧
      response t = some (.ok, f (temper (readWord s.mt s.idx.toNat))) ∧
      t.mt = s.mt ∧ t.idx.toNat = s.idx.toNat + 1 ∧ t.seeded = true) ∧
    (s.seeded = true → 624 ≤ s.idx.toNat → ∃ t, o = .next t ∧
      response t = some (.ok, f (temper (readWord (twistAll s.mt) 0))) ∧
      t.mt = twistAll s.mt ∧ t.idx = 1#10 ∧ t.seeded = true) ∧
    (s.seeded = false → ∃ t, o = .next t ∧ response t = some (.notSeeded, 0#32) ∧ arch t = arch s) := by
  obtain ⟨t, ht, ⟨hs, hr, ha⟩ | ⟨hs, hr, ha⟩⟩ := h
  · obtain ⟨hm, hi, hd⟩ := arch_inj ha
    refine ⟨fun _ hx => ⟨t, ht, ?_⟩, fun _ hx => ⟨t, ht, ?_⟩, fun hu => ?_⟩
    · rw [hr, hm, hi, hd, drawnAt_zero_of_lt hx, draw_of_lt hx]
      exact ⟨rfl, rfl, idx_succ hx, hs⟩
    · rw [hr, hm, hi, hd, drawnAt_zero_of_ge hx, draw_of_ge hx]
      exact ⟨rfl, rfl, rfl, hs⟩
    · cases hs.symm.trans hu
  · refine ⟨fun hu => ?_, fun hu => ?_, fun _ => ⟨t, ht, hr, ha⟩⟩
    · cases hs.symm.trans hu
    · cases hs.symm.trans hu

/-- The function of the word and the state fix what is answered and left. -/
theorem AnswersOne.agree {f : Word → Word} {s t t' : State} (h : AnswersOne f s (.next t))
    (h' : AnswersOne f s (.next t')) : arch t = arch t' ∧ response t = response t' := by
  obtain ⟨_, ⟨⟩, ⟨hs, hr, ha⟩ | ⟨hs, hr, ha⟩⟩ := h <;> obtain ⟨_, ⟨⟩, ⟨hs', hr', ha'⟩ | ⟨hs', hr', ha'⟩⟩ := h'
  · exact ⟨ha.trans ha'.symm, hr.trans hr'.symm⟩
  · cases hs.symm.trans hs'
  · cases hs.symm.trans hs'
  · exact ⟨ha.trans ha'.symm, hr.trans hr'.symm⟩

/-- Settles O18: WORD takes one word and answers it. -/
theorem wordResult : Obligations.WordResult := by
  unfold Obligations.WordResult
  exact fun x s => (exec_word_answersOne x s).outcomes

/-- Bit 31 as a word is whether the word is at least `2^31`. -/
theorem zext32_bit31 (w : Word) : zext32 (bitOf w 31) = if 2147483648 ≤ w.toNat then 1#32 else 0#32 := by
  have hmsb : bitOf w 31 = decide (2147483648 ≤ w.toNat) :=
    (BitVec.msb_eq_getLsbD_last w).symm.trans (BitVec.msb_eq_decide w)
  rw [zext32, hmsb]
  simp only [decide_eq_true_eq]

/-- Settles O19: BOOL takes one word and answers its bit 31. -/
theorem boolResult : Obligations.BoolResult := by
  unfold Obligations.BoolResult
  intro x s
  simp only [← zext32_bit31]
  exact (exec_bool_answersOne x s).outcomes

/-- Settles O20: the argument is no part of the function WORD or BOOL answers with. -/
theorem dontCareArgumentBits : Obligations.DontCareArgumentBits := by
  unfold Obligations.DontCareArgumentBits
  intro x x' s t t'
  refine ⟨fun h h' => AnswersOne.agree (f := id) (s := s) ?_ ?_,
    fun h h' => AnswersOne.agree (f := fun w => zext32 (bitOf w 31)) (s := s) ?_ ?_⟩
  · exact h ▸ exec_word_answersOne x s
  · exact h' ▸ exec_word_answersOne x' s
  · exact h ▸ exec_bool_answersOne x s
  · exact h' ▸ exec_bool_answersOne x' s

/-- The state WORD or BOOL leaves: an error, or an answer after one draw. -/
theorem exec_one_cases {x : Word} {i : Instr} {s t : State} (hi : i = .word x ∨ i = .bool x)
    (h : exec i s = .next t) :
    (s.seeded = true ∧ ∃ d, t = respond .ok d (draw (latch (opcodeOf i) x s))) ∨
    (s.seeded = false ∧ t = raise .notSeeded (latch (opcodeOf i) x s)) := by
  rcases hi with rfl | rfl
  · rcases exec_word_cases x s with ⟨hs, he⟩ | ⟨hs, he⟩ <;> cases h.symm.trans he
    · exact .inl ⟨hs, _, rfl⟩
    · exact .inr ⟨hs, rfl⟩
  · rcases exec_bool_cases x s with ⟨hs, he⟩ | ⟨hs, he⟩ <;> cases h.symm.trans he
    · exact .inl ⟨hs, _, rfl⟩
    · exact .inr ⟨hs, rfl⟩

/-- Settles O21: a draw writes the cursor and `y_r`, and only a regeneration the vector and the loop counter. -/
theorem wordAndBoolFrame : Obligations.WordAndBoolFrame := by
  unfold Obligations.WordAndBoolFrame
  intro x i s t hi h
  rcases exec_one_cases hi h with ⟨hs, d, rfl⟩ | ⟨hs, rfl⟩
  · obtain ⟨hseeded, -, hprev, hop, harg, -, -, hreset, hlevel, hhost⟩ := draw_frame (latch (opcodeOf i) x s)
    refine ⟨⟨hseeded, hprev, hreset, hlevel, hhost, hop, harg⟩, fun hkeep => ?_, fun hu => ?_⟩
    · have hx : (latch (opcodeOf i) x s).idx.toNat < 624 := hkeep.resolve_left (by simp [hs])
      rw [respond_cnt, respond_mt, draw_of_lt hx]
      exact ⟨rfl, fun _ => rfl⟩
    · cases hs.symm.trans hu
  · exact ⟨⟨rfl, rfl, rfl, rfl, rfl, rfl, rfl⟩, fun _ => ⟨rfl, fun _ => rfl⟩, fun _ => ⟨rfl, rfl⟩⟩

end Sys2Proof.Machine
end

section
/-!
PROOFS. BOUNDED (43_bounded.md R240) and what is said of every command: BOUNDED's answer within 19969 draws, its frame, that
each command ends with a response (30_encoding.md R109) which depends on the architectural state alone (20_memory.md R80), and
the word that each draw after a SEED reads (41_regenerate.md R180).
-/

namespace Sys2Proof.Machine

/-! ### BOUNDED -/

/-- What BOUNDED leaves: an error, or an answer after the draws its bound asks for (R240, R243, R244), which end
(`firstAccepted_exists`). -/
theorem exec_bounded_state (arg : Word) (s : State) :
    ((sint32 arg ≤ 1 ∨ s.seeded = false) ∧ ∃ e, exec (.bounded arg) s = .next (raise e (latch opBounded arg s))) ∨
    (1 < sint32 arg ∧ s.seeded = true ∧ ∃ d j, j ≤ 19968 ∧ ((∃ k, arg.toNat = 2 ^ k) → j = 0) ∧
      ((¬∃ k, arg.toNat = 2 ^ k) → FirstAccepted arg.toNat j s) ∧
      exec (.bounded arg) s = .next (respond .ok d (drawTimes (j + 1) (latch opBounded arg s)))) := by
  rcases exec_bounded_cases arg s with ⟨hb, he⟩ | ⟨-, hs, he⟩ | ⟨hb, hs, hp, he⟩ | ⟨hb, hs, hp, j, hj, hf, he⟩
  · exact .inl ⟨.inl (badBound_eq_true.mp hb), _, he⟩
  · exact .inl ⟨.inr hs, _, he⟩
  · exact .inr ⟨badBound_eq_false.mp hb, hs, _, 0, Nat.zero_le _, fun _ => rfl, fun hn => absurd hp hn, he⟩
  · exact .inr ⟨badBound_eq_false.mp hb, hs, _, j, hj, fun hpow => absurd hpow hp, fun _ => hf, he⟩

/-- Settles O26: the draws end within 19969 words, and every OK response of BOUNDED is in range. -/
theorem boundedAlwaysAnswers : Obligations.BoundedAlwaysAnswers := by
  unfold Obligations.BoundedAlwaysAnswers
  intro arg s hn hs
  rcases exec_bounded_state arg s with ⟨hle | hu, -⟩ | ⟨-, -, d, j, hj, -, -, he⟩
  · exact absurd hn (not_lt.mpr hle)
  · cases hs.symm.trans hu
  · obtain ⟨hlow, hhigh, -⟩ := boundedRangeLaw arg s _ d he (response_respond _ _ _)
    exact ⟨_, d, j, he, response_respond _ _ _, hlow, hhigh, hj, arch_answered opBounded arg _ d (j + 1) s⟩

/-- Settles O23: of BOUNDED's outcomes only the flag's error is one of an unseeded block with a legal bound. -/
theorem boundedUnseeded : Obligations.BoundedUnseeded := by
  unfold Obligations.BoundedUnseeded
  intro arg s hn hs
  have hb : badBound arg = false := badBound_eq_false.mpr hn
  rcases exec_bounded_cases arg s with ⟨hbad, -⟩ | ⟨-, -, he⟩ | ⟨-, hd, -⟩ | ⟨-, hd, -⟩
  · cases hb.symm.trans hbad
  · exact ⟨_, he, response_raise _ _, (arch_raise _ _).trans (arch_latch _ _ _)⟩
  · cases hs.symm.trans hd
  · cases hs.symm.trans hd

/-- Draws that do not run out of words leave the vector and the loop counter alone. -/
theorem drawTimes_of_le {k : Nat} {s : State} (h : s.idx.toNat + k ≤ 624) :
    (drawTimes k s).cnt = s.cnt ∧ (drawTimes k s).mt = s.mt := by
  induction k generalizing s with
  | zero => exact ⟨rfl, rfl⟩
  | succ k ih =>
    have hx : s.idx.toNat < 624 := by omega
    rw [drawTimes, draw_of_lt hx]
    exact ih (by rw [takeWord_idx, idx_succ hx]; omega)

/-- Settles O30: an error writes only the latched command; `j + 1` draws that do not run out of words keep the vector. -/
theorem boundedFrame : Obligations.BoundedFrame := by
  unfold Obligations.BoundedFrame
  intro arg s t h
  rcases exec_bounded_state arg s with ⟨-, e, he⟩ | ⟨hn, hs, d, i, -, hpow, hrej, he⟩
  all_goals obtain rfl := Host.Outcome.next.inj (he.symm.trans h)
  · refine ⟨⟨rfl, rfl, rfl, rfl, rfl, rfl, rfl⟩, fun _ => ⟨rfl, rfl, rfl, fun _ => rfl⟩, ?_, ?_⟩
    · exact fun _ _ _ _ => ⟨rfl, fun _ => rfl⟩
    · exact fun _ _ _ _ _ _ => ⟨rfl, fun _ => rfl⟩
  · obtain ⟨hseeded, -, hprev, hop, harg, -, -, hreset, hlevel, hhost⟩ :=
      drawTimes_frame (i + 1) (latch opBounded arg s)
    have kept : s.idx.toNat + i < 624 → (drawTimes (i + 1) (latch opBounded arg s)).cnt = s.cnt ∧
        ∀ k, readWord (drawTimes (i + 1) (latch opBounded arg s)).mt k = readWord s.mt k := fun hx => by
      obtain ⟨hc, hm⟩ := drawTimes_of_le (k := i + 1) (s := latch opBounded arg s) hx
      exact ⟨hc, fun k => congrArg (readWord · k) hm⟩
    refine ⟨⟨hseeded, hprev, hreset, hlevel, hhost, hop, harg⟩, ?_, fun _ _ hp hx => kept ?_,
      fun j _ _ hp hj hx => kept ?_⟩
    · rintro (hle | hu)
      · omega
      · cases hs.symm.trans hu
    · rw [hpow hp]
      exact hx
    · rw [firstAccepted_unique (hrej hp) hj]
      exact hx

/-! ### Every command -/

/-- Settles O35: a command whose check fails answers the error, any other answers OK. -/
theorem everyCommandAnswers : Obligations.EveryCommandAnswers := by
  unfold Obligations.EveryCommandAnswers
  intro op arg s
  obtain ⟨t, ht, error, ok⟩ := transact_by_commandError op arg s
  cases hc : commandError op arg s.seeded with
  | some e =>
    obtain ⟨hr, -⟩ := error e hc
    exact ⟨t, e, 0#32, ht, hr⟩
  | none =>
    obtain ⟨d, hr⟩ := ok hc
    exact ⟨t, .ok, d, ht, hr⟩

/-- Settles O34: the states a command leaves agree when those it meets have the same architectural part. -/
theorem commandsDependOnArchitecturalState : Obligations.CommandsDependOnArchitecturalState := by
  unfold Obligations.CommandsDependOnArchitecturalState
  exact fun op arg _ _ h => afterCommand_agree op arg h

/-! ### The words after a SEED -/

/-- SEED leaves no word drawn (40_seed.md R143). -/
theorem drawn_zero_afterSeed (seed : Word) (s : State) : Drawn seed 0 (afterSeed seed s) := ⟨rfl, rfl, rfl⟩

/-- Settles O36: SEED starts the count, and each draw adds one to it. -/
theorem regenerationBoundary : Obligations.RegenerationBoundary := by
  unfold Obligations.RegenerationBoundary
  refine ⟨fun seed s t h => ?_, fun seed k s h => ⟨h.exhausted_iff_mod, h.drawnAt_eq 0, h.draw_succ⟩⟩
  rw [eq_afterSeed h]
  exact drawn_zero_afterSeed seed s

end Sys2Proof.Machine
end

section
/-!
PROOFS. The sequencer and reset: the edge in SEED (44_sequencer.md R275), the cycle counts of the reference sequencer (R284),
the writers of the flag and of the vector (10_state.md R33, R35), and the values of reset (R44).
-/

namespace Sys2Proof.Machine

/-! ### Cycle counts -/

/-- A draw command passes its checks on a seeded block (44_sequencer.md R274). -/
theorem commandError_draw_seeded {op : Opcode} {arg : Word} (h : drawCommand op arg = true) :
    commandError op arg true = none := by
  rcases drawCommand_cases h with rfl | rfl | ⟨rfl, hb⟩
  · exact commandError_word arg true
  · exact commandError_bool arg true
  · rw [commandError_bounded, hb]
    rfl

/-- So it runs whole to the answer of its draws. -/
theorem transact_draw {op : Opcode} {arg : Word} {s : State} (h : drawCommand op arg = true) (hs : s.seeded = true) :
    ∃ t, transact op arg s = .next t ∧ DrawAnswer op arg s t := by
  have hnone : commandError op arg s.seeded = none := hs ▸ commandError_draw_seeded h
  obtain ⟨t, ht, ⟨ho, -⟩ | ⟨-, e, he, -⟩ | ⟨-, -, -, hd⟩⟩ := transact_cases op arg s
  · exact absurd ho (drawCommand_ne_seed h)
  · cases hnone.symm.trans he
  · exact ⟨t, ht, hd⟩

/-- And it is accepted into DRAW. -/
theorem acceptEdge_drawCommand {op : Opcode} {arg : Word} {s : State} (h : drawCommand op arg = true)
    (hs : s.seeded = true) : acceptEdge op arg s = enter .draw (latch op arg s) :=
  acceptEdge_draw (hs ▸ commandError_draw_seeded h) (drawCommand_ne_seed h)

/-- The draw commands that always take one word: all but BOUNDED by rejection. -/
def TakesOneWord (op : Opcode) (arg : Word) : Prop :=
  op = opWord ∨ op = opBool ∨ op = opBounded ∧ 1 < sint32 arg ∧ ∃ k, arg.toNat = 2 ^ k

/-- Each is a draw command that passes the argument check. -/
theorem drawCommand_of_takesOneWord {op : Opcode} {arg : Word} (h : TakesOneWord op arg) :
    drawCommand op arg = true := by
  rcases h with rfl | rfl | ⟨rfl, hn, -⟩
  · rfl
  · rfl
  · simp [drawCommand, badBound_eq_false.mpr hn]

/-- In POST after its one draw such a command answers. -/
theorem DrawAnswer.postEdge_one {op : Opcode} {arg : Word} {s t : State} (h : DrawAnswer op arg s t)
    (h1 : TakesOneWord op arg) : postEdge (enter .post (draw (enter .draw (latch op arg s)))) = .next t := by
  obtain ⟨-, -, -, hod, hnd, -⟩ := draw_frame (enter .draw (latch op arg s))
  have word : (draw (enter .draw (latch op arg s))).yR = drawnAt s 0 :=
    arch_drawnAt 0 ((arch_enter _ _).trans (arch_latch op arg s))
  have ends : ∀ d, respond .ok d (enter .post (draw (enter .draw (latch op arg s)))) =
      respond .ok d (draw (latch op arg s)) := fun d => by rw [draw_enter, respond_enter, respond_enter]
  cases h with
  | word ho ht =>
    rw [ht, ← word, ← ends]
    exact postEdge_word (hod.trans ho)
  | bool ho ht =>
    rw [ht, ← word, ← ends]
    exact postEdge_bool (hod.trans ho)
  | caseA ho hb hk ht =>
    rw [ht, ← word, ← ends]
    exact postEdge_caseA (hod.trans ho) hnd hb hk
  | caseB ho hb hk j hj hf ht =>
    subst ho
    rcases h1 with h1 | h1 | ⟨-, -, hpow⟩
    · exact absurd h1 (by decide)
    · exact absurd h1 (by decide)
    · exact absurd hpow hk

/-- How many of the next draws regenerate is said of the architectural state alone. -/
theorem regensIn_congr (k : Nat) {s t : State} (h : arch s = arch t) : regensIn k s = regensIn k t := by
  induction k generalizing s t with
  | zero => rfl
  | succ k ih =>
    obtain ⟨-, hi, -⟩ := arch_inj h
    rw [regensIn, regensIn, ih (arch_draw h), exhausted, exhausted, hi]

/-- The run of a command that takes one word: one pass. -/
theorem DrawAnswer.runs_one {op : Opcode} {arg : Word} {s t : State} (h : DrawAnswer op arg s t)
    (hw : s.wasReset = true) (h1 : TakesOneWord op arg) :
    Busy (if 624 ≤ s.idx.toNat then 627 else 2) (enter .draw (latch op arg s)) t := by
  have count : (if 624 ≤ s.idx.toNat then 627 else 2) = 2 + 625 * regensIn 1 s := by
    simp only [regensIn, exhausted_iff]
    split <;> rfl
  rw [count, ← regensIn_congr 1 ((arch_enter .draw _).trans (arch_latch op arg s))]
  exact pass_runs hw rfl (h.postEdge_one h1)

/-- The run of BOUNDED by rejection: one pass per word up to the first accepted one. -/
theorem DrawAnswer.runs_rejection {arg : Word} {s t : State} {j : Nat} (h : DrawAnswer opBounded arg s t)
    (hw : s.wasReset = true) (hk : ¬∃ k, arg.toNat = 2 ^ k) (hj : FirstAccepted arg.toNat j s) :
    Busy (2 * (1 + j) + 625 * regensIn (j + 1) s) (enter .draw (latch opBounded arg s)) t := by
  cases h with
  | word ho _ => exact absurd ho (by decide)
  | bool ho _ => exact absurd ho (by decide)
  | caseA _ _ hpow _ => exact absurd hpow hk
  | caseB _ hb _ i _ hf ht =>
    obtain rfl : i = j := firstAccepted_unique hf hj
    have same : arch (enter .draw (latch opBounded arg s)) = arch s := (arch_enter _ _).trans (arch_latch _ _ _)
    have run := rejection_runs (s := enter .draw (latch opBounded arg s)) hw rfl rfl rfl hb hk
      (arch_firstAccepted same.symm hf)
    rw [regensIn_congr _ same, arch_drawnAt _ same, drawTimes_enter, respond_enter] at run
    rw [ht]
    exact run

/-- Where a command stands while it runs and when it has ended, by the number of edges it takes. -/
theorem Busy.command {p : Pins} {s t : State} {c : Nat} (hw : s.wasReset = true) (hf : s.fsm = .idle)
    (hr : p.rst = false) (hv : p.cmdValid = true) (ht : transact p.cmdOp p.cmdArg s = .next t) (hresp : t.fsm = .resp)
    (hb : Busy c (acceptEdge p.cmdOp p.cmdArg s) t) (ps : List Pins) (hl : ps.length ≤ c)
    (hq : ∀ q ∈ ps, q.rst = false) :
    ∃ u, Machine.edges (p :: ps) s = .next u ∧ u.fsm ≠ .idle ∧ (u.fsm = .resp ↔ ps.length = c) ∧
      (ps.length = c → transact p.cmdOp p.cmdArg s = .next u) := by
  obtain ⟨u, hu, hend, hbusy⟩ := hb.edges ps hl hq
  refine ⟨u, by rw [Machine.edges, edge_accept hr hw hf hv]; exact hu, ?_⟩
  rcases hl.lt_or_eq with hlt | heq
  · obtain ⟨hidle, hnot⟩ := hbusy hlt
    exact ⟨hidle, ⟨fun h => absurd h hnot, fun h => absurd h hlt.ne⟩, fun h => absurd h hlt.ne⟩
  · obtain rfl := hend heq
    exact ⟨by rw [hresp]; decide, ⟨fun _ => heq, fun _ => hresp⟩, fun _ => ht⟩

/-- Settles O39: each kind of command has a run of its own length to the state of its transaction. -/
theorem referenceCycleCounts : Obligations.ReferenceCycleCounts := by
  unfold Obligations.ReferenceCycleCounts
  intro p s c hw hf hr hv hc
  suffices h : ∃ t, transact p.cmdOp p.cmdArg s = .next t ∧ t.fsm = .resp ∧
      Busy c (acceptEdge p.cmdOp p.cmdArg s) t by
    obtain ⟨t, ht, hresp, hb⟩ := h
    exact hb.command hw hf hr hv ht hresp
  rcases hc with ⟨⟨e, he⟩, rfl⟩ | ⟨ho, rfl⟩ | ⟨hs, h1, rfl⟩ | ⟨hs, ho, hn, hk, j, hj, rfl⟩
  · obtain ⟨t, ht, ⟨-, hnone, -⟩ | ⟨-, e', he', -, rfl⟩ | ⟨-, -, hnone, -⟩⟩ := transact_cases p.cmdOp p.cmdArg s
    · cases hnone.symm.trans he
    · exact ⟨_, ht, raise_fsm _ _, by rw [acceptEdge_error he']; exact .done _⟩
    · cases hnone.symm.trans he
  · rw [ho, acceptEdge_seed]
    exact ⟨_, exec_seed p.cmdArg s, afterSeed_fsm _ _, seed_runs p.cmdArg hw⟩
  · have hd := drawCommand_of_takesOneWord h1
    obtain ⟨t, ht, ha⟩ := transact_draw hd hs
    exact ⟨t, ht, ha.fsm_resp, by rw [acceptEdge_drawCommand hd hs]; exact ha.runs_one hw h1⟩
  · have hd : drawCommand opBounded p.cmdArg = true := by simp [drawCommand, badBound_eq_false.mpr hn]
    obtain ⟨t, ht, ha⟩ := transact_draw hd hs
    rw [ho]
    exact ⟨t, ht, ha.fsm_resp, by rw [acceptEdge_drawCommand hd hs]; exact ha.runs_rejection hw hk hj⟩

/-! ### The edge in SEED, and what edges write -/

/-- Settles O41: the chain's step, with the response at the last word. -/
theorem seedTransitions : Obligations.SeedTransitions := by
  unfold Obligations.SeedTransitions
  intro p s hw hf hr hc
  rw [edge_of_run hr hw, runEdge_seed p hf, seedEdge, if_neg (by omega)]
  split
  · next h => rw [h]; rfl
  · rfl

/-- Settles O47: row by row of the sequencer's tables, only reset, SEED's acceptance, its last step and a recovery name the
flag. -/
theorem seededFlagWriters : Obligations.SeededFlagWriters := by
  unfold Obligations.SeededFlagWriters
  intro p s t h
  cases edgeTo_of_edge h with
  | reset hr ht => simp [hr, ht]
  | wait hr hw hf hv ht => simp [hr, hf, hv, ht]
  | error e hr hw hf hv ho he ht => simp [hr, hf, ho, ht]
  | seed hr hw hf hv ho ht => simp [hr, hf, hv, ho, ht, seedingAt]
  | accept hr hw hf hv ho hs ht => simp [hr, hf, drawCommand_ne_seed ho, ht]
  | seeding hr hw hf hc ht => simp [hr, hf, hc.ne, ht]
  | seedDone hr hw hf hc ht => simp [hr, hf, hc, ht]
  | exhaust hr hw hf hx ht => simp [hr, hf, ht]
  | take hr hw hf hx ht => simp [hr, hf, ht]
  | twisting hr hw hf hc ht => simp [hr, hf, ht]
  | twistDone hr hw hf hc ht => simp [hr, hf, ht]
  | result d hr hw hf ho ht => simp [hr, hf, ht]
  | reject hr hw hf ho hb hk hx ht => simp [hr, hf, ht]
  | hold hr hw hf hv ht => simp [hr, hf, ht]
  | taken hr hw hf hv ht => simp [hr, hf, ht]
  | upset hr hw hf ht => rcases hf with hf | hf <;> simp [hr, hf, ht]

/-- A step of the twist writes its own word alone (41_regenerate.md R174). -/
theorem readWord_twistStep_other (mt : StateVec) {k i : Nat} (hk : k < 624) (hi : i < 624) (h : i ≠ k) :
    readWord (twistStep mt k) i = readWord mt i :=
  readWord_writeWord_other mt _ (by omega)

/-- Settles O48: the rows that write the vector write one word, the one the statement leaves out. -/
theorem vectorWriters : Obligations.VectorWriters := by
  unfold Obligations.VectorWriters
  intro p s t h i hi hnot
  have other : ∀ k, k < 624 → i ≠ k → ∀ v, readWord (writeWord s.mt k v) i = readWord s.mt i :=
    fun k hk hne v => readWord_writeWord_other s.mt v (by omega)
  have notCnt : p.rst = false → s.fsm = .seed ∨ s.fsm = .twist → i ≠ s.cnt.toNat :=
    fun hr hf h0 => hnot ⟨hr, .inr ⟨hf, h0⟩⟩
  cases edgeTo_of_edge h with
  | seed hr hw hf hv ho ht =>
    have hne : i ≠ 0 := fun h0 => hnot ⟨hr, .inl ⟨hf, hv, ho, h0⟩⟩
    rw [ht]
    exact other 0 (by decide) hne p.cmdArg
  | seeding hr hw hf hc ht =>
    rw [ht]
    exact other _ (by omega) (notCnt hr (.inl hf)) _
  | seedDone hr hw hf hc ht =>
    rw [ht]
    exact other 623 (by decide) (hc ▸ notCnt hr (.inl hf)) _
  | twisting hr hw hf hc ht =>
    rw [ht]
    exact readWord_twistStep_other s.mt (by omega) hi (notCnt hr (.inr hf))
  | twistDone hr hw hf hc ht =>
    rw [ht]
    exact readWord_twistStep_other s.mt (by decide) hi (hc ▸ notCnt hr (.inr hf))
  | reset hr ht => rw [ht, resetEdge_mt]
  | error e hr hw hf hv ho he ht => rw [ht, raise_mt, latch_mt]
  | accept hr hw hf hv ho hs ht => rw [ht, latch_mt]
  | take hr hw hf hx ht => rw [ht, takeWord_mt]
  | result d hr hw hf ho ht => rw [ht, respond_mt]
  | _ => subst_vars; rfl

/-! ### Reset -/

/-- Settles O50: the values of `State.reset`. -/
theorem resetStateValues : Obligations.ResetStateValues := by
  unfold Obligations.ResetStateValues
  exact ⟨rfl, rfl, rfl, rfl, rfl, rfl, rfl⟩

end Sys2Proof.Machine
end

section
/-!
PROOFS. The step: whole commands or single edges (00_scope.md R16), refused before the first reset (70_reset_and_hazards.md
R355), and the machine's two invariants, which hold at reset and which every step keeps (10_state.md R45).
-/

namespace Sys2Proof.Machine

/-! ### What a step is -/

/-- A step that accepts a command at the transaction level runs it whole. -/
theorem step_of_accepting {s : State} (hl : s.level = .transaction) (ha : accepting (nextPins s) s = true) :
    step s = transact (nextPins s).cmdOp (nextPins s).cmdArg (popPins s) := if_pos ⟨hl, ha⟩

/-- Every other step is an edge. -/
theorem step_of_not_accepting {s : State} (h : ¬(s.level = .transaction ∧ accepting (nextPins s) s = true)) :
    step s = edge (nextPins s) (popPins s) := if_neg h

/-- Only a reset block in IDLE accepts, at an edge without reset. -/
theorem accepting_iff {p : Pins} {s : State} :
    accepting p s = true ↔ p.rst = false ∧ s.wasReset = true ∧ p.cmdValid = true ∧ s.fsm = .idle := by
  simp [accepting, cmdReady, and_assoc]

/-- Settles O53: before the first reset no step accepts, so each is an edge. -/
theorem refusedBeforeFirstReset : Obligations.RefusedBeforeFirstReset := by
  unfold Obligations.RefusedBeforeFirstReset
  intro s hw
  have hstep : step s = edge (nextPins s) (popPins s) := step_of_not_accepting fun ⟨_, ha⟩ => by
    obtain ⟨-, hreset, -⟩ := accepting_iff.mp ha
    cases hw.symm.trans hreset
  rw [hstep]
  exact ⟨fun hr => edge_refused hr hw, fun hr => edge_of_rst hr _⟩

/-- Settles O55: at the cycle level, or with nothing to accept, a step is an edge. -/
theorem stepIsOneEdgeOtherwise : Obligations.StepIsOneEdgeOtherwise := by
  unfold Obligations.StepIsOneEdgeOtherwise
  intro s h
  refine step_of_not_accepting fun ⟨hl, ha⟩ => ?_
  rcases h with h | h
  · cases hl.symm.trans h
  · cases ha.symm.trans h

/-- A whole command that decodes is run. -/
theorem transact_of_decodePorts {op : Opcode} {arg : Word} {i : Instr} (h : decodePorts op arg = .ok i) (s : State) :
    transact op arg s = exec i s := by
  rw [transact, h]

/-- The command a table word names is the decoding of its lowest bits. -/
theorem decode_of_decodeTableWord {nbits w : Nat} {i : Instr} (h : decodeTableWord nbits w = some i) :
    decode (BitVec.ofNat 35 (w % 2 ^ nbits)) = .ok i := by
  rw [decodeTableWord] at h
  split at h
  · split at h
    · next hd => rw [hd, Option.some.inj h]
    · cases h
  · cases h

/-- A block to which a command word is presented accepts it at the next edge, in the state it was in but for what
acceptance needs (log 8). -/
theorem step_present (cw : Command) (s : State) : step (present cw s) =
    transact (Command.op cw) (Command.arg cw) { s with fsm := .idle, wasReset := true, level := .transaction } :=
  step_of_accepting (s := present cw s) rfl rfl

/-- Settles O54: an accepting step is `transact`, which runs what the ports decode to and raises ILLEGAL_OP where they
decode to nothing. -/
theorem stepRunsDecodedCommand : Obligations.StepRunsDecodedCommand := by
  unfold Obligations.StepRunsDecodedCommand
  refine ⟨fun s hl ha => ⟨step_of_accepting hl ha, fun i hi => ?_, fun op hop => ?_⟩, fun s nbits w i h => ?_⟩
  · rw [step_of_accepting hl ha, transact_of_decodePorts hi]
  · obtain ⟨-, hr⟩ := reserved_of_decodePorts hop
    exact ⟨_, (step_of_accepting hl ha).trans (transact_reserved hr _ _), response_raise _ _, arch_raise _ _, rfl⟩
  · exact (step_present _ s).trans (transact_of_decodePorts (decode_of_decodeTableWord h) _)

/-- What a step that goes on did: a whole command, accepted in IDLE, or an edge. -/
theorem step_cases {s t : State} (h : step s = .next t) :
    (s.fsm = .idle ∧ transact (nextPins s).cmdOp (nextPins s).cmdArg (popPins s) = .next t) ∨
    edge (nextPins s) (popPins s) = .next t := by
  by_cases hc : s.level = .transaction ∧ accepting (nextPins s) s = true
  · obtain ⟨hl, ha⟩ := hc
    obtain ⟨-, -, -, hf⟩ := accepting_iff.mp ha
    exact .inl ⟨hf, (step_of_accepting hl ha).symm.trans h⟩
  · exact .inr ((step_of_not_accepting hc).symm.trans h)

/-! ### What every whole command leaves -/

/-- A draw command's answer is given after one draw or more. -/
theorem DrawAnswer.eq_respond {op : Opcode} {arg : Word} {s t : State} (h : DrawAnswer op arg s t) :
    ∃ d k, t = respond .ok d (drawTimes (k + 1) (latch op arg s)) := by
  cases h with
  | word ho ht => exact ⟨_, 0, ht⟩
  | bool ho ht => exact ⟨_, 0, ht⟩
  | caseA ho hb hk ht => exact ⟨_, 0, ht⟩
  | caseB ho hb hk j hj hf ht => exact ⟨_, j, ht⟩

/-- A whole command ends in RESP with itself latched, and leaves the model's own fields and the host's script alone. -/
theorem transact_frame {op : Opcode} {arg : Word} {s t : State} (h : transact op arg s = .next t) :
    t.fsm = .resp ∧ t.opR = op ∧ t.argR = arg ∧ t.wasReset = s.wasReset ∧ t.level = s.level ∧ t.host = s.host := by
  obtain ⟨u, hu, hc⟩ := transact_cases op arg s
  obtain rfl := Host.Outcome.next.inj (hu.symm.trans h)
  rcases hc with ⟨rfl, -, rfl⟩ | ⟨-, e, -, -, rfl⟩ | ⟨-, -, -, hd⟩
  · simp
  · simp
  · obtain ⟨d, k, rfl⟩ := hd.eq_respond
    obtain ⟨-, -, -, hop, harg, -, -, hreset, hlevel, hhost⟩ := drawTimes_frame (k + 1) (latch op arg s)
    exact ⟨rfl, hop, harg, hreset, hlevel, hhost⟩

/-- A whole command keeps the cursor at 624 or below (10_state.md R32). -/
theorem transact_idx_le {op : Opcode} {arg : Word} {s t : State} (h : transact op arg s = .next t)
    (hi : s.idx.toNat ≤ 624) : t.idx.toNat ≤ 624 := by
  obtain ⟨u, hu, hc⟩ := transact_cases op arg s
  obtain rfl := Host.Outcome.next.inj (hu.symm.trans h)
  rcases hc with ⟨-, -, rfl⟩ | ⟨-, e, -, -, rfl⟩ | ⟨-, -, -, hd⟩
  · simp
  · exact hi
  · obtain ⟨d, k, rfl⟩ := hd.eq_respond
    obtain ⟨-, hle⟩ := draw_idx (drawTimes k (latch op arg s))
    rw [respond_idx, drawTimes_succ]
    exact hle

/-! ### The machine's invariant -/

/-- Between commands, in IDLE or RESP, the invariant asks only for the reset and the cursor's bound. -/
theorem Inv.of_resting {t : State} (hf : t.fsm = .idle ∨ t.fsm = .resp) (hw : t.wasReset = true)
    (hi : t.idx.toNat ≤ 624) : Inv t := by
  rcases hf with hf | hf <;>
    exact ⟨hw, hi, by simp [hf], by simp [hf], by simp [hf], by simp [hf], by simp [hf]⟩

/-- The host's script is no part of the invariant. -/
theorem Inv.popPins {s : State} (h : Inv s) : Inv (popPins s) :=
  ⟨h.reset, h.idxLe, h.inSeed, h.inDraw, h.inTwist, h.inPost, h.used⟩

/-- Entering DRAW with a draw command in progress on a seeded block. -/
theorem Inv.of_draw {t : State} (hf : t.fsm = .draw) (hw : t.wasReset = true) (hi : t.idx.toNat ≤ 624)
    (hc : drawCommand t.opR t.argR = true) (hs : t.seeded = true) : Inv t :=
  ⟨hw, hi, by simp [hf], fun _ => ⟨hc, hs⟩, by simp [hf], by simp [hf], by simp [hf]⟩

/-- The same in TWIST, with a loop counter that names a word. -/
theorem Inv.of_twist {t : State} (hf : t.fsm = .twist) (hw : t.wasReset = true) (hi : t.idx = 624#10)
    (hc : drawCommand t.opR t.argR = true) (hs : t.seeded = true) (hn : t.cnt.toNat ≤ 623) : Inv t :=
  ⟨hw, by rw [hi]; decide, by simp [hf], by simp [hf], fun _ => ⟨hc, hs, hn, hi⟩, by simp [hf], by simp [hf]⟩

/-- The same in POST, with the word before the cursor in `y_r`. -/
theorem Inv.of_post {t : State} (hf : t.fsm = .post) (hw : t.wasReset = true) (hi : t.idx.toNat ≤ 624)
    (hc : drawCommand t.opR t.argR = true) (hs : t.seeded = true) (h1 : 1 ≤ t.idx.toNat)
    (hy : t.yR = temper (readWord t.mt (t.idx.toNat - 1))) : Inv t :=
  ⟨hw, hi, by simp [hf], by simp [hf], by simp [hf], fun _ => ⟨hc, hs, h1, hy⟩, by simp [hf]⟩

/-- In SEED the chain stands at word `cnt`, with the word before it in `prev`. -/
theorem Inv.of_seed {t : State} (hf : t.fsm = .seed) (hw : t.wasReset = true) (ho : t.opR = opSeed)
    (h1 : 1 ≤ t.cnt.toNat) (hn : t.cnt.toNat ≤ 623) (hs : t.seeded = false) (hi : t.idx = 624#10)
    (hp : t.prev = readWord t.mt (t.cnt.toNat - 1)) : Inv t :=
  ⟨hw, by rw [hi]; decide, fun _ => ⟨ho, h1, hn, hs, hi, hp⟩, by simp [hf], by simp [hf], by simp [hf], by simp [hf]⟩

/-- A step of the twist or of the chain moves the loop counter to the next word. -/
theorem cnt_succ {c : Idx} (h : c.toNat < 623) : (c + 1#10).toNat = c.toNat + 1 := idx_succ (by omega)

/-- Every edge keeps the invariant. -/
theorem edge_keeps_inv {p : Pins} {s t : State} (hi : Inv s) (h : edge p s = .next t) : Inv t := by
  cases edgeTo_of_edge h with
  | reset hr ht => exact ht ▸ .of_resting (.inl rfl) rfl (by simp)
  | wait hr hw hf hv ht => exact ht ▸ hi
  | error e hr hw hf hv ho he ht => exact ht ▸ .of_resting (.inr rfl) hw hi.idxLe
  | seed hr hw hf hv ho ht => exact ht ▸ .of_seed rfl hw rfl (by simp) (by simp) rfl rfl rfl
  | accept hr hw hf hv ho hs ht => exact ht ▸ .of_draw rfl hw hi.idxLe ho hs
  | seeding hr hw hf hc ht =>
    obtain ⟨ho, -, -, hs, hidx, -⟩ := hi.inSeed hf
    subst ht
    refine .of_seed hf hw ho ?_ ?_ hs hidx ?_
    · rw [cnt_succ hc]; omega
    · rw [cnt_succ hc]; omega
    · rw [cnt_succ hc]; exact (readWord_writeWord_same _ _ _).symm
  | seedDone hr hw hf hc ht => exact ht ▸ .of_resting (.inr rfl) hw hi.idxLe
  | exhaust hr hw hf hx ht =>
    obtain ⟨hd, hs⟩ := hi.inDraw hf
    have hidx : s.idx = 624#10 := BitVec.eq_of_toNat_eq (Nat.le_antisymm hi.idxLe hx)
    exact ht ▸ .of_twist rfl hw hidx hd hs (by simp)
  | take hr hw hf hx ht =>
    obtain ⟨hd, hs⟩ := hi.inDraw hf
    subst ht
    refine .of_post rfl hw ?_ hd hs ?_ ?_
    · rw [takeWord_idx, idx_succ hx]; omega
    · rw [takeWord_idx, idx_succ hx]; omega
    · rw [takeWord_idx, idx_succ hx]; rfl
  | twisting hr hw hf hc ht =>
    obtain ⟨hd, hs, -, hidx⟩ := hi.inTwist hf
    subst ht
    exact .of_twist hf hw hidx hd hs (by rw [cnt_succ hc]; omega)
  | twistDone hr hw hf hc ht =>
    obtain ⟨hd, hs, -⟩ := hi.inTwist hf
    exact ht ▸ .of_draw rfl hw (by simp) hd hs
  | result d hr hw hf ho ht => exact ht ▸ .of_resting (.inr rfl) hw hi.idxLe
  | reject hr hw hf ho hb hk hx ht =>
    obtain ⟨hd, hs, -⟩ := hi.inPost hf
    exact ht ▸ .of_draw rfl hw hi.idxLe hd hs
  | hold hr hw hf hv ht => exact ht ▸ hi
  | taken hr hw hf hv ht => exact ht ▸ .of_resting (.inl rfl) hw hi.idxLe
  | upset hr hw hf ht => exact ht ▸ .of_resting (.inl rfl) hw hi.idxLe

/-- Settles O57: a whole command ends in RESP with its cursor in bounds, and every edge keeps the invariant. -/
theorem stepKeepsInvariant : Obligations.StepKeepsInvariant := by
  unfold Obligations.StepKeepsInvariant
  intro s t hi h
  rcases step_cases h with ⟨-, hc⟩ | he
  · obtain ⟨hf, -, -, hw, -⟩ := transact_frame hc
    exact .of_resting (.inr hf) (hw.trans hi.reset) (transact_idx_le hc hi.idxLe)
  · exact edge_keeps_inv hi.popPins he

/-- A draw command in POST has a row (44_sequencer.md R278). -/
theorem postEdge_next {s : State} (h : drawCommand s.opR s.argR = true) : ∃ t, postEdge s = .next t := by
  rcases drawCommand_cases h with ho | ho | ⟨ho, hb⟩
  · exact ⟨_, postEdge_word ho⟩
  · exact ⟨_, postEdge_bool ho⟩
  · exact ⟨_, postEdge_bounded ho hb⟩

/-- From the invariant every edge goes on. -/
theorem edge_next_of_inv (p : Pins) {s : State} (hi : Inv s) : ∃ t, edge p s = .next t := by
  cases hr : p.rst with
  | true => exact ⟨_, edge_of_rst hr s⟩
  | false =>
    rw [edge_of_run hr hi.reset]
    cases hf : s.fsm with
    | idle => exact ⟨_, runEdge_idle p hf⟩
    | seed =>
      obtain ⟨-, -, hn, -⟩ := hi.inSeed hf
      rw [runEdge_seed p hf, seedEdge, if_neg (by omega)]
      split
      · exact ⟨_, rfl⟩
      · exact ⟨_, rfl⟩
    | draw => exact ⟨_, runEdge_draw p hf⟩
    | twist =>
      obtain ⟨-, -, hn, -⟩ := hi.inTwist hf
      rw [runEdge_twist p hf, twistEdge, if_neg (by omega)]
      split
      · exact ⟨_, rfl⟩
      · exact ⟨_, rfl⟩
    | post =>
      obtain ⟨hd, -⟩ := hi.inPost hf
      rw [runEdge_post p hf]
      exact postEdge_next hd
    | resp => exact ⟨_, runEdge_resp p hf⟩
    | unused6 => exact ⟨_, runEdge_unused p (.inl hf)⟩
    | unused7 => exact ⟨_, runEdge_unused p (.inr hf)⟩

/-- Settles O58: a whole command always answers, and so does every edge from the invariant. -/
theorem stepNeverStopsFromInvariant : Obligations.StepNeverStopsFromInvariant := by
  unfold Obligations.StepNeverStopsFromInvariant
  intro s hi
  by_cases hc : s.level = .transaction ∧ accepting (nextPins s) s = true
  · obtain ⟨hl, ha⟩ := hc
    obtain ⟨t, ht, -⟩ := transact_cases (nextPins s).cmdOp (nextPins s).cmdArg (popPins s)
    exact ⟨t, (step_of_accepting hl ha).trans ht⟩
  · rw [step_of_not_accepting hc]
    exact edge_next_of_inv _ hi.popPins

/-! ### The content invariant -/

/-- A vector of some seed after some number of regenerations. -/
def Genuine (mt : StateVec) : Prop := ∃ seed g, mt = batch seed g

/-- A regeneration of such a vector is one again. -/
theorem Genuine.twistAll {mt : StateVec} (h : Genuine mt) : Genuine (twistAll mt) := by
  obtain ⟨seed, g, rfl⟩ := h
  exact ⟨seed, g + 1, rfl⟩

/-- So draws keep the vector genuine. -/
theorem Genuine.drawTimes {s : State} (h : Genuine s.mt) (k : Nat) : Genuine (drawTimes k s).mt := by
  induction k generalizing s with
  | zero => exact h
  | succ k ih =>
    refine ih ?_
    rcases Nat.lt_or_ge s.idx.toNat 624 with hx | hx
    · rw [draw_of_lt hx]
      exact h
    · rw [draw_of_ge hx]
      exact h.twistAll

/-- Outside TWIST the content invariant says the vector of a seeded block is genuine. -/
theorem Content.genuine_mt {s : State} (h : Content s) (hf : s.fsm ≠ .twist) (hs : s.seeded = true) :
    Genuine s.mt := by
  obtain ⟨seed, g, hm⟩ := h.genuine hs
  rw [if_neg hf] at hm
  exact ⟨seed, g, hm⟩

/-- Outside SEED and TWIST that is all it says. -/
theorem Content.of_genuine {t : State} (h1 : t.fsm ≠ .seed) (h2 : t.fsm ≠ .twist)
    (h : t.seeded = true → Genuine t.mt) : Content t :=
  ⟨fun hf => absurd hf h1, fun hs => by simp only [if_neg h2]; exact h hs⟩

/-- In SEED it says which words are written. -/
theorem Content.of_seeding {t : State} (hs : t.seeded = false)
    (h : ∀ i, i < t.cnt.toNat → readWord t.mt i = readWord (batch t.argR 0) i) : Content t :=
  ⟨fun _ => h, fun hu => by cases hs.symm.trans hu⟩

/-- In TWIST it says how far the next vector is. -/
theorem Content.of_twist {t : State} {seed : Word} {g : Nat} (hf : t.fsm = .twist)
    (h : t.mt = twistTo (batch seed g) t.cnt.toNat) : Content t :=
  ⟨fun hs => absurd (hf.symm.trans hs) (by decide), fun _ => ⟨seed, g, by rw [if_pos hf, h]⟩⟩

/-- The host's script is no part of the content invariant. -/
theorem Content.popPins {s : State} (h : Content s) : Content (popPins s) := ⟨h.seeding, h.genuine⟩

/-- The chain's next step writes the seeded vector's next word (40_seed.md R142). -/
theorem seeding_step {s : State} (hi : Inv s) (hc : Content s) (hf : s.fsm = .seed) {i : Nat}
    (h : i < s.cnt.toNat + 1) :
    readWord (writeWord s.mt s.cnt.toNat (initStep s.prev s.cnt.toNat)) i = readWord (batch s.argR 0) i := by
  obtain ⟨-, h1, hn, -, -, hp⟩ := hi.inSeed hf
  rw [readWord_writeWord s.mt _ (by omega) (by omega)]
  split
  · next heq =>
    obtain ⟨k, hk⟩ := Nat.exists_eq_add_of_le' h1
    subst heq
    rw [hk] at hp ⊢
    rw [hp, Nat.add_sub_cancel, hc.seeding hf k (by omega), readWord_batch_succ s.argR (by omega)]
  · exact hc.seeding hf i (by omega)

/-- The last step completes the seeded vector. -/
theorem seeding_last {s : State} (hi : Inv s) (hc : Content s) (hf : s.fsm = .seed) (hn : s.cnt.toNat = 623) :
    writeWord s.mt 623 (initStep s.prev 623) = batch s.argR 0 :=
  stateVec_ext fun i h => by
    have := seeding_step hi hc hf (i := i) (by omega)
    rwa [hn] at this

/-- Every edge keeps the content invariant. -/
theorem edge_keeps_content {p : Pins} {s t : State} (hi : Inv s) (hc : Content s) (h : edge p s = .next t) :
    Content t := by
  cases edgeTo_of_edge h with
  | reset hr ht => exact ht ▸ .of_genuine (by simp) (by simp) (by simp)
  | wait hr hw hf hv ht => exact ht ▸ hc
  | error e hr hw hf hv ho he ht => exact ht ▸ .of_genuine (by simp) (by simp) (hc.genuine_mt (by simp [hf]))
  | seed hr hw hf hv ho ht =>
    subst ht
    refine .of_seeding rfl fun i h => ?_
    obtain rfl : i = 0 := Nat.lt_one_iff.mp h
    exact (readWord_seedTo_zero p.cmdArg s.mt (k := 0) (by decide)).trans (readWord_batch_zero p.cmdArg).symm
  | accept hr hw hf hv ho hs ht =>
    exact ht ▸ .of_genuine (by simp) (by simp) (hc.genuine_mt (by simp [hf]))
  | seeding hr hw hf hn ht =>
    obtain ⟨-, -, -, hs, -⟩ := hi.inSeed hf
    subst ht
    refine .of_seeding hs fun i h => seeding_step hi hc hf ?_
    rwa [cnt_succ hn] at h
  | seedDone hr hw hf hn ht =>
    exact ht ▸ .of_genuine (by simp) (by simp) fun _ => ⟨s.argR, 0, seeding_last hi hc hf hn⟩
  | exhaust hr hw hf hx ht =>
    obtain ⟨-, hs⟩ := hi.inDraw hf
    obtain ⟨seed, g, hm⟩ := hc.genuine_mt (by simp [hf]) hs
    exact ht ▸ .of_twist (seed := seed) (g := g) rfl hm
  | take hr hw hf hx ht =>
    exact ht ▸ .of_genuine (by simp) (by simp) (hc.genuine_mt (by simp [hf]))
  | twisting hr hw hf hn ht =>
    obtain ⟨-, hs, -⟩ := hi.inTwist hf
    obtain ⟨seed, g, hm⟩ := hc.genuine hs
    rw [if_pos hf] at hm
    subst ht
    refine .of_twist (seed := seed) (g := g) hf ?_
    rw [cnt_succ hn, ← twistTo_succ (batch seed g) rfl, ← hm]
  | twistDone hr hw hf hn ht =>
    obtain ⟨-, hs, -⟩ := hi.inTwist hf
    obtain ⟨seed, g, hm⟩ := hc.genuine hs
    rw [if_pos hf, hn] at hm
    have whole : twistStep s.mt 623 = twistAll (batch seed g) := by
      rw [hm, twistAll_eq]
      exact twistTo_succ (batch seed g) rfl
    exact ht ▸ .of_genuine (by simp) (by simp) fun _ => ⟨seed, g + 1, whole⟩
  | result d hr hw hf ho ht => exact ht ▸ .of_genuine (by simp) (by simp) (hc.genuine_mt (by simp [hf]))
  | reject hr hw hf ho hb hk hx ht => exact ht ▸ .of_genuine (by simp) (by simp) (hc.genuine_mt (by simp [hf]))
  | hold hr hw hf hv ht => exact ht ▸ hc
  | taken hr hw hf hv ht => exact ht ▸ .of_genuine (by simp) (by simp) (hc.genuine_mt (by simp [hf]))
  | upset hr hw hf ht => exact ht ▸ .of_genuine (by simp) (by simp) (by simp)

/-- A whole command keeps the vector of a seeded block genuine. -/
theorem transact_genuine {op : Opcode} {arg : Word} {s t : State} (h : transact op arg s = .next t)
    (hg : s.seeded = true → Genuine s.mt) : t.seeded = true → Genuine t.mt := by
  obtain ⟨u, hu, hc⟩ := transact_cases op arg s
  obtain rfl := Host.Outcome.next.inj (hu.symm.trans h)
  rcases hc with ⟨-, -, rfl⟩ | ⟨-, e, -, -, rfl⟩ | ⟨-, hs, -, hd⟩
  · exact fun _ => ⟨arg, 0, rfl⟩
  · exact hg
  · obtain ⟨d, k, rfl⟩ := hd.eq_respond
    exact fun _ => Genuine.drawTimes (s := latch op arg s) (hg hs) (k + 1)

/-- Settles O59: a whole command leaves a seeded block with a genuine vector, and every edge keeps the content invariant. -/
theorem stepKeepsVectorGenuine : Obligations.StepKeepsVectorGenuine := by
  unfold Obligations.StepKeepsVectorGenuine
  intro s t hi hc h
  rcases step_cases h with ⟨hf, hc'⟩ | he
  · obtain ⟨hresp, -⟩ := transact_frame hc'
    exact .of_genuine (by simp [hresp]) (by simp [hresp])
      (transact_genuine hc' (hc.popPins.genuine_mt (by simp [hf])))
  · exact edge_keeps_content hi.popPins hc.popPins he

/-- Settles O56: after reset the block rests in IDLE, unseeded. -/
theorem invariantsHoldAtReset : Obligations.InvariantsHoldAtReset := by
  unfold Obligations.InvariantsHoldAtReset
  exact ⟨.of_resting (.inl rfl) rfl (by decide), .of_genuine (by decide) (by decide) nofun⟩

end Sys2Proof.Machine
end

section
/-!
PROOFS. What reset leaves unspecified is never observed (10_state.md R43, R44): states alike but for it show the same outputs
and step to states alike, by whole commands and by edges.
-/

namespace Sys2Proof.Machine

/-! ### Being alike, state of the sequencer by state -/

/-- The registers and inputs that are always specified agree. -/
def SameSpecified (s t : State) : Prop :=
  s.fsm = t.fsm ∧ s.idx = t.idx ∧ s.seeded = t.seeded ∧ s.wasReset = t.wasReset ∧ s.level = t.level ∧ s.host = t.host

/-- In IDLE no hidden register is read. -/
theorem Alike.of_idle {s t : State} (hf : s.fsm = .idle) (h : SameSpecified s t)
    (hv : s.seeded = true → s.mt = t.mt) : Alike s t :=
  ⟨h, by simp [hf], by simp [hf], hv, by simp [hf], by simp [hf], by simp [hf]⟩

/-- In RESP the response is shown. -/
theorem Alike.of_resp {s t : State} (hf : s.fsm = .resp) (h : SameSpecified s t)
    (hc : s.opR = t.opR ∧ s.argR = t.argR) (hr : s.stR = t.stR ∧ s.dataR = t.dataR)
    (hv : s.seeded = true → s.mt = t.mt) : Alike s t :=
  ⟨h, fun _ => hc, fun _ => hr, hv, by simp [hf], by simp [hf], by simp [hf]⟩

/-- In SEED the chain goes on from the words and registers written so far. -/
theorem Alike.of_seed {s t : State} (hf : s.fsm = .seed) (h : SameSpecified s t)
    (hc : s.opR = t.opR ∧ s.argR = t.argR) (hs : s.seeded = false) (hn : s.cnt = t.cnt) (hp : s.prev = t.prev)
    (hw : ∀ i, i < s.cnt.toNat → readWord s.mt i = readWord t.mt i) : Alike s t :=
  ⟨h, fun _ => hc, by simp [hf], by simp [hs], fun _ => ⟨hn, hp, hw⟩, by simp [hf], by simp [hf]⟩

/-- In DRAW the command in progress and the vector are read. -/
theorem Alike.of_draw {s t : State} (hf : s.fsm = .draw) (h : SameSpecified s t)
    (hc : s.opR = t.opR ∧ s.argR = t.argR) (hm : s.mt = t.mt) : Alike s t :=
  ⟨h, fun _ => hc, by simp [hf], fun _ => hm, by simp [hf], by simp [hf], by simp [hf]⟩

/-- In TWIST the loop counter too. -/
theorem Alike.of_twist {s t : State} (hf : s.fsm = .twist) (h : SameSpecified s t)
    (hc : s.opR = t.opR ∧ s.argR = t.argR) (hm : s.mt = t.mt) (hn : s.cnt = t.cnt) : Alike s t :=
  ⟨h, fun _ => hc, by simp [hf], fun _ => hm, by simp [hf], fun _ => hn, by simp [hf]⟩

/-- In POST the word just drawn too. -/
theorem Alike.of_post {s t : State} (hf : s.fsm = .post) (h : SameSpecified s t)
    (hc : s.opR = t.opR ∧ s.argR = t.argR) (hm : s.mt = t.mt) (hy : s.yR = t.yR) : Alike s t :=
  ⟨h, fun _ => hc, by simp [hf], fun _ => hm, by simp [hf], by simp [hf], fun _ => hy⟩

/-- Alike states have the same pins coming, and stay alike when those are taken off. -/
theorem Alike.popPins {s t : State} (h : Alike s t) : Alike (popPins s) (popPins t) := by
  obtain ⟨hf, hi, hs, hw, hl, hh⟩ := h.same
  exact ⟨⟨hf, hi, hs, hw, hl, congrArg List.tail hh⟩, h.command, h.response, h.vector, h.chain, h.twist, h.word⟩

/-- If the first outcome goes on, so does the second, to a state alike. -/
def NextsAlike (o o' : Host.Outcome State Fault Refusal) : Prop :=
  ∀ s', o = .next s' → ∃ t', o' = .next t' ∧ Alike s' t'

/-- Two outcomes that go on to states alike. -/
theorem Alike.next {s t : State} (h : Alike s t) : NextsAlike (.next s) (.next t) := by
  rintro _ ⟨⟩
  exact ⟨t, rfl, h⟩

/-! ### Whole commands -/

/-- What a whole command shows of its state: the response, the cursor, the flag, and the vector of a seeded block. -/
def ShownAlike (s t : State) : Prop :=
  response s = response t ∧ s.idx = t.idx ∧ s.seeded = t.seeded ∧ (s.seeded = true → s.mt = t.mt)

/-- States that agree show the same. -/
theorem Agree.shownAlike {s t : State} (h : Agree s t) : ShownAlike s t := by
  obtain ⟨hr, ha⟩ := h
  obtain ⟨hm, hi, hs⟩ := arch_inj ha
  exact ⟨hr, hi, hs, fun _ => hm⟩

/-- A whole command shows the same from two states whatever vectors they hold unseeded. -/
theorem transact_shownAlike (op : Opcode) (arg : Word) {s t : State} (hi : s.idx = t.idx) (hs : s.seeded = t.seeded)
    (hv : s.seeded = true → s.mt = t.mt) :
    ∃ s' t', transact op arg s = .next s' ∧ transact op arg t = .next t' ∧ ShownAlike s' t' := by
  obtain ⟨s', hs', hc⟩ := transact_cases op arg s
  obtain ⟨t', ht', hd⟩ := transact_cases op arg t
  refine ⟨s', t', hs', ht', ?_⟩
  rw [← hs] at hd
  rcases hc with ⟨ho, hnone, rfl⟩ | ⟨ho, e, he, -, rfl⟩ | ⟨ho, hseeded, hnone, -⟩
  · rcases hd with ⟨-, -, rfl⟩ | ⟨hne, -⟩ | ⟨hne, -⟩
    · exact (afterSeed_agree arg s t).shownAlike
    · exact absurd ho hne
    · exact absurd ho hne
  · rcases hd with ⟨hseed, -⟩ | ⟨-, e', he', -, rfl⟩ | ⟨-, -, hnone, -⟩
    · exact absurd hseed ho
    · cases he.symm.trans he'
      exact ⟨rfl, hi, hs, hv⟩
    · cases hnone.symm.trans he
  · obtain ⟨u, v, hu, hv', ha⟩ := transact_agree op arg (arch_ext (hv hseeded) hi hs)
    cases hs'.symm.trans hu
    cases ht'.symm.trans hv'
    exact ha.shownAlike

/-- A whole command takes states alike to states alike. -/
theorem transact_alike (op : Opcode) (arg : Word) {s t : State} (h : Alike s t) :
    NextsAlike (transact op arg s) (transact op arg t) := by
  obtain ⟨-, hi, hs, hw, hl, hh⟩ := h.same
  obtain ⟨s', t', hs', ht', hr, hi', hseeded, hv⟩ := transact_shownAlike op arg hi hs h.vector
  obtain ⟨sf, sop, sarg, sw, sl, sh⟩ := transact_frame hs'
  obtain ⟨tf, top, targ, tw, tl, th⟩ := transact_frame ht'
  rw [hs', ht']
  refine (Alike.of_resp sf ⟨sf.trans tf.symm, hi', hseeded, ?_, ?_, ?_⟩ ⟨sop.trans top.symm, sarg.trans targ.symm⟩ ?_
    hv).next
  · rw [sw, tw, hw]
  · rw [sl, tl, hl]
  · rw [sh, th, hh]
  · rw [response, response, if_pos sf, if_pos tf] at hr
    exact Prod.ext_iff.mp (Option.some.inj hr)

/-! ### Edges -/

/-- The edge that accepts a command (44_sequencer.md R274). -/
theorem acceptEdge_alike (op : Opcode) (arg : Word) {s t : State} (h : Alike s t) :
    Alike (acceptEdge op arg s) (acceptEdge op arg t) := by
  obtain ⟨-, hi, hs, hw, hl, hh⟩ := h.same
  by_cases ho : op = opSeed
  · subst ho
    rw [acceptEdge_seed, acceptEdge_seed]
    refine .of_seed rfl ⟨rfl, rfl, rfl, hw, hl, hh⟩ ⟨rfl, rfl⟩ rfl rfl ?_ fun i hlt => ?_
    · exact readWord_seedTo_base arg s.mt t.mt (Nat.le_refl 0) (by decide)
    · exact readWord_seedTo_base arg s.mt t.mt (Nat.le_of_lt_succ hlt) (by decide)
  · cases hc : commandError op arg s.seeded with
    | some e =>
      rw [acceptEdge_error hc, acceptEdge_error (hs ▸ hc)]
      exact .of_resp rfl ⟨rfl, hi, hs, hw, hl, hh⟩ ⟨rfl, rfl⟩ ⟨rfl, rfl⟩ h.vector
    | none =>
      obtain ⟨-, hseeded⟩ := commandError_none hc ho
      rw [acceptEdge_draw hc ho, acceptEdge_draw (hs ▸ hc) ho]
      exact .of_draw rfl ⟨rfl, hi, hs, hw, hl, hh⟩ ⟨rfl, rfl⟩ (h.vector hseeded)

/-- The edge in SEED (44_sequencer.md R275): the word written is the same, and the last one makes the vectors equal. -/
theorem seedEdge_alike {s t : State} (hi : Inv s) (h : Alike s t) (hf : s.fsm = .seed) :
    NextsAlike (seedEdge s) (seedEdge t) := by
  obtain ⟨hft, hidx, hs, hw, hl, hh⟩ := h.same
  have hcmd := h.command (by simp [hf])
  obtain ⟨hn, hp, hwords⟩ := h.chain hf
  obtain ⟨-, -, hle, hunseeded, -⟩ := hi.inSeed hf
  have written : ∀ i, i < s.cnt.toNat + 1 →
      readWord (writeWord s.mt s.cnt.toNat (initStep s.prev s.cnt.toNat)) i =
        readWord (writeWord t.mt s.cnt.toNat (initStep s.prev s.cnt.toNat)) i := fun i hlt => by
    rw [readWord_writeWord s.mt _ (by omega) (by omega), readWord_writeWord t.mt _ (by omega) (by omega)]
    split
    · rfl
    · exact hwords i (by omega)
  have named : ¬624 ≤ s.cnt.toNat := by omega
  rw [seedEdge, seedEdge, ← hn, ← hp, if_neg named, if_neg named]
  split
  · next hlast =>
    refine Alike.next (.of_resp rfl ⟨rfl, hidx, rfl, hw, hl, hh⟩ hcmd ⟨rfl, rfl⟩ fun _ => ?_)
    exact stateVec_ext fun i hlt => written i (by omega)
  · refine Alike.next (.of_seed hf ⟨hft, hidx, hs, hw, hl, hh⟩ hcmd hunseeded rfl rfl fun i hlt => ?_)
    exact written i (by rwa [cnt_succ (c := s.cnt) (by omega)] at hlt)

/-- The edge in DRAW (44_sequencer.md R276). -/
theorem drawEdge_alike {s t : State} (h : Alike s t) (hf : s.fsm = .draw) (hm : s.mt = t.mt) :
    Alike (drawEdge s) (drawEdge t) := by
  obtain ⟨-, hi, hs, hw, hl, hh⟩ := h.same
  have hcmd := h.command (by simp [hf])
  have hx : exhausted s = exhausted t := by rw [exhausted, exhausted, hi]
  have hy : temper (readWord s.mt s.idx.toNat) = temper (readWord t.mt t.idx.toNat) := by rw [hm, hi]
  rw [drawEdge, drawEdge, ← hx]
  split
  · exact .of_twist rfl ⟨rfl, hi, hs, hw, hl, hh⟩ hcmd hm rfl
  · exact .of_post rfl ⟨rfl, congrArg (· + 1#10) hi, hs, hw, hl, hh⟩ hcmd hm hy

/-- The edge in TWIST (44_sequencer.md R277). -/
theorem twistEdge_alike {s t : State} (hi : Inv s) (h : Alike s t) (hf : s.fsm = .twist) (hm : s.mt = t.mt) :
    NextsAlike (twistEdge s) (twistEdge t) := by
  obtain ⟨hft, hidx, hs, hw, hl, hh⟩ := h.same
  have hcmd := h.command (by simp [hf])
  have hn := h.twist hf
  obtain ⟨-, -, hle, -⟩ := hi.inTwist hf
  have named : ¬624 ≤ s.cnt.toNat := by omega
  rw [twistEdge, twistEdge, ← hn, ← hm, if_neg named, if_neg named]
  split
  · exact Alike.next (.of_draw rfl ⟨rfl, rfl, hs, hw, hl, hh⟩ hcmd rfl)
  · exact Alike.next (.of_twist hf ⟨hft, hidx, hs, hw, hl, hh⟩ hcmd rfl rfl)

/-- The same result given in POST. -/
theorem respond_alike (d : Word) {s t : State} (h : Alike s t) (hf : s.fsm = .post) :
    Alike (respond .ok d s) (respond .ok d t) := by
  obtain ⟨-, hidx, hs, hw, hl, hh⟩ := h.same
  exact .of_resp rfl ⟨rfl, hidx, hs, hw, hl, hh⟩ (h.command (by simp [hf])) ⟨rfl, rfl⟩ h.vector

/-- The edge in POST (44_sequencer.md R278). -/
theorem postEdge_alike {s t : State} (hi : Inv s) (h : Alike s t) (hf : s.fsm = .post) :
    NextsAlike (postEdge s) (postEdge t) := by
  obtain ⟨-, hidx, hs, hw, hl, hh⟩ := h.same
  obtain ⟨hop, harg⟩ := h.command (by simp [hf])
  have hy := h.word hf
  obtain ⟨hd, hseeded, -⟩ := hi.inPost hf
  rcases drawCommand_cases hd with ho | ho | ⟨ho, hb⟩
  · rw [postEdge_word ho, postEdge_word (hop ▸ ho), ← hy]
    exact (respond_alike _ h hf).next
  · rw [postEdge_bool ho, postEdge_bool (hop ▸ ho), ← hy]
    exact (respond_alike _ h hf).next
  · rw [postEdge_bounded ho hb, postEdge_bounded (hop ▸ ho) (harg ▸ hb), postBounded, postBounded, ← harg, ← hy]
    refine Alike.next ?_
    split_ifs
    · exact respond_alike _ h hf
    · exact respond_alike _ h hf
    · exact .of_draw rfl ⟨rfl, hidx, hs, hw, hl, hh⟩ ⟨hop, rfl⟩ (h.vector hseeded)

/-- Every edge takes states alike to states alike. -/
theorem edge_alike (p : Pins) {s t : State} (his : Inv s) (hit : Inv t) (h : Alike s t) :
    NextsAlike (edge p s) (edge p t) := by
  obtain ⟨hft, hidx, hs, hw, hl, hh⟩ := h.same
  obtain ⟨not6, not7⟩ := his.used
  cases hr : p.rst with
  | true =>
    rw [edge_of_rst hr, edge_of_rst hr]
    exact Alike.next (.of_idle rfl ⟨rfl, rfl, rfl, rfl, hl, hh⟩ fun hseeded => nomatch hseeded)
  | false =>
    rw [edge_of_run hr his.reset, edge_of_run hr hit.reset]
    cases hf : s.fsm with
    | idle =>
      rw [runEdge_idle p hf, runEdge_idle p (hft.symm.trans hf), idleEdge, idleEdge]
      split
      · exact (acceptEdge_alike p.cmdOp p.cmdArg h).next
      · exact h.next
    | seed =>
      rw [runEdge_seed p hf, runEdge_seed p (hft.symm.trans hf)]
      exact seedEdge_alike his h hf
    | draw =>
      obtain ⟨-, hseeded⟩ := his.inDraw hf
      rw [runEdge_draw p hf, runEdge_draw p (hft.symm.trans hf)]
      exact (drawEdge_alike h hf (h.vector hseeded)).next
    | twist =>
      obtain ⟨-, hseeded, -⟩ := his.inTwist hf
      rw [runEdge_twist p hf, runEdge_twist p (hft.symm.trans hf)]
      exact twistEdge_alike his h hf (h.vector hseeded)
    | post =>
      rw [runEdge_post p hf, runEdge_post p (hft.symm.trans hf)]
      exact postEdge_alike his h hf
    | resp =>
      rw [runEdge_resp p hf, runEdge_resp p (hft.symm.trans hf), respEdge, respEdge]
      split
      · exact Alike.next (.of_idle rfl ⟨rfl, hidx, hs, hw, hl, hh⟩ h.vector)
      · exact h.next
    | unused6 => exact absurd hf not6
    | unused7 => exact absurd hf not7

/-! ### Outputs and steps -/

/-- States alike present the same response. -/
theorem Alike.response_eq {s t : State} (h : Alike s t) : Machine.response s = Machine.response t := by
  obtain ⟨hf, -⟩ := h.same
  rw [Machine.response, Machine.response, ← hf]
  split
  · next hresp =>
    obtain ⟨hst, hdata⟩ := h.response hresp
    rw [hst, hdata]
  · rfl

/-- Every step takes states alike to states alike. -/
theorem step_alike {s t : State} (his : Inv s) (hit : Inv t) (h : Alike s t) : NextsAlike (step s) (step t) := by
  obtain ⟨hf, -, -, hw, hl, hh⟩ := h.same
  have hp : nextPins s = nextPins t := by rw [nextPins, nextPins, hh]
  have ha : accepting (nextPins s) s = accepting (nextPins t) t := by
    rw [accepting, accepting, cmdReady, cmdReady, hp, hw, hf]
  by_cases hc : s.level = .transaction ∧ accepting (nextPins s) s = true
  · obtain ⟨hls, has⟩ := hc
    rw [step_of_accepting hls has, step_of_accepting (hl ▸ hls) (ha ▸ has), ← hp]
    exact transact_alike _ _ h.popPins
  · rw [step_of_not_accepting hc, step_of_not_accepting (hl ▸ ha ▸ hc), ← hp]
    exact edge_alike _ his.popPins hit.popPins h.popPins

/-- Settles O60: the outputs read only what is specified or presented, and a step keeps states alike. -/
theorem resetContentsUnobservable : Obligations.ResetContentsUnobservable := by
  unfold Obligations.ResetContentsUnobservable
  intro s t his hit h
  obtain ⟨hf, hi, hs, -⟩ := h.same
  refine ⟨?_, ?_, h.response_eq, ?_, hi, step_alike his hit h⟩
  · rw [cmdReady, cmdReady, hf]
  · rw [rspValid, rspValid, hf]
  · rw [seededO, seededO, hs]

end Sys2Proof.Machine
end
